-- ==== Sys2Proof/Word.lean ====
section
/-! DEFINITION. The words of `KEELOQ_CORE`: unsigned bit vectors with bit 0 the least significant (00_scope.md R8),
and the 1-bit direction under its two names (30_encoding.md R49). -/

namespace Sys2Proof

/-- The 32-bit block: `BLK`, `block_in`, `block_out` (10_state.md R16). -/
abbrev Block := BitVec 32

/-- The 64-bit key, a circular register: `KEY`, `key_in` (10_state.md R17). -/
abbrev Key := BitVec 64

/-- The 10-bit round counter `CNT` (10_state.md R20). -/
abbrev Count := BitVec 10

/-- The 5-bit index of the NLF table (40_datapath.md R56). -/
abbrev NlfIndex := BitVec 5

/-- The packed command word `CMD[96:0]` (30_encoding.md R48). -/
abbrev CmdWord := BitVec 97

/-- The direction of an operation, the value of the 1-bit register `MODE` (10_state.md R18).
Its encoding as a bit is in Decode.lean. -/
inductive Mode where
  | encrypt
  | decrypt
deriving DecidableEq, Repr, Inhabited

end Sys2Proof
end

