-- ==== Sys2Proof/Config.lean ====
section
/-! DEFINITION. What an implementation of `KEELOQ_CORE` fixes (00_scope.md R7), and the free values: the register
contents the spec leaves unspecified after a reset edge (93_implementation_defined.md U1). -/

namespace Sys2Proof

/-- The parameters an implementation chooses. `roundsPerCycle` is `ROUNDS_PER_CYCLE` (U), the one OPEN parameter
inside the block (00_scope.md R7, 92_eei_decisions.md D7). It is plain data carried in State so that every statement
about all states holds for every U; no step changes it (log entry 3, DESIGN CHOICE). -/
structure Config where
  roundsPerCycle : Nat
deriving DecidableEq, Repr

/-- `ROUNDS`: every operation performs 528 rounds, in both directions (00_scope.md R7). -/
def Config.rounds : Nat := 528

/-- The reference value of the OPEN parameter, U = 1 (00_scope.md R7; log entry 3). -/
def Config.reference : Config := { roundsPerCycle := 1 }

/-- FREE VALUE. What `BLK` holds after the `n`-th reset edge of a run: unspecified (10_state.md R31; log entry 2). -/
opaque Config.resetBlk : Nat → Block

/-- FREE VALUE. What `KEY` holds after the `n`-th reset edge of a run: unspecified (10_state.md R31; log entry 2). -/
opaque Config.resetKey : Nat → Key

/-- FREE VALUE. What `MODE` holds after the `n`-th reset edge of a run: unspecified (10_state.md R31; log entry 2). -/
opaque Config.resetMode : Nat → Mode

end Sys2Proof
end

