-- ==== Sys2Proof/Syntax.lean ====
section
/-! DEFINITION. The commands of `KEELOQ_CORE`, one constructor per row of spec/opcode_table.json. -/

namespace Sys2Proof

/-- A command: the direction and its two operands (30_encoding.md R47). Both take a block and a key and nothing else. -/
inductive Instr where
  /-- `ENCRYPT b, k` (41_cipher_operations.md R67). -/
  | encrypt (block : Block) (key : Key)
  /-- `DECRYPT b, k` (41_cipher_operations.md R68). -/
  | decrypt (block : Block) (key : Key)
deriving DecidableEq, Repr

end Sys2Proof
end

