-- ==== Sys2Proof/WellFormed.lean ====
section
/-! DEFINITION. The checks on data whose type says less than the spec does.
An `Instr` itself has no ill-formed value: its fields have the widths of the ports, and every block, key and direction
is a legal command (30_encoding.md R51, 41_cipher_operations.md R79). What can be ill-formed is a command given as a
number, an implementation parameter, and a literal of a host program. -/

namespace Sys2Proof

/-- A number is a packed command word exactly when it fits the 97 bits of `CMD[96:0]` (30_encoding.md R48). -/
def isCmdWord (w : Nat) : Bool := decide (w < 2 ^ 97)

/-- `ROUNDS_PER_CYCLE` must divide 528 (00_scope.md R7). -/
def Config.wf (c : Config) : Bool := decide (c.roundsPerCycle ∣ Config.rounds)

/-- A literal stands in a place of a stated width and is zero-extended to it (00_scope.md R9); a literal that needs
more bits than the place has is not one of that place. -/
def literalFits (width n : Nat) : Bool := decide (n < 2 ^ width)

end Sys2Proof
end

