-- ==== Sys2Proof/Decode.lean ====
section
/-! DEFINITION. The packed command word `CMD[96:0] = {key, block, mode}` (30_encoding.md R48), its decoder and its
encoder, both written from the command map of 30_encoding.md R53. Every 97-bit word decodes (R51); a number that needs
more than 97 bits is no command word and is rejected by name. -/

namespace Sys2Proof

/-- The mode bit: 0 selects `ENCRYPT`, 1 selects `DECRYPT` (30_encoding.md R49). -/
def Mode.ofBit (b : BitVec 1) : Mode :=
  if b = 0 then .encrypt else .decrypt

/-- The bit that stands for a direction (30_encoding.md R49). -/
def Mode.toBit : Mode → BitVec 1
  | .encrypt => 0
  | .decrypt => 1

/-- The command of a direction and its operands (30_encoding.md R53). -/
def Instr.ofFields (m : Mode) (block : Block) (key : Key) : Instr :=
  match m with
  | .encrypt => .encrypt block key
  | .decrypt => .decrypt block key

/-- `CMD[0] = mode`, `CMD[32:1] = block`, `CMD[96:33] = key` (30_encoding.md R48, R50). -/
def packCmd (mode : BitVec 1) (block : Block) (key : Key) : CmdWord :=
  (key ++ block) ++ mode

/-- The command a packed word names: total, since every word is a command (30_encoding.md R51, R53). -/
def decode (w : CmdWord) : Instr :=
  Instr.ofFields (Mode.ofBit (w.extractLsb' 0 1)) (w.extractLsb' 1 32) (w.extractLsb' 33 64)

/-- The packed word of a command (30_encoding.md R53). -/
def encode : Instr → CmdWord
  | .encrypt block key => packCmd 0 block key
  | .decrypt block key => packCmd 1 block key

/-- Why a number is not read as a command. -/
inductive DecodeError where
  /-- The number needs more than the 97 bits of `CMD[96:0]`. Raised by `decodeNat`. Safe: no port could carry it. -/
  | wordTooWide
deriving DecidableEq, Repr

/-- Decoding of any number: a packed word, or rejected by name. -/
def decodeNat (w : Nat) : Except DecodeError Instr :=
  if isCmdWord w then .ok (decode (BitVec.ofNat 97 w)) else .error .wordTooWide

/-- The command read from a word whose low `nbits` bits are those of `w` and whose other bits are 0, numbered as
spec/opcode_table.json numbers them: bit 0 is `CMD[0]`. The block stores no words (20_memory.md R32), so no byte order
enters: the bits of the number are the bits of `CMD`. -/
def decodeTableWord (nbits w : Nat) : Option Instr :=
  match decodeNat (w % 2 ^ nbits) with
  | .ok i => some i
  | .error _ => none

end Sys2Proof
end

