-- ==== Sys2Proof/Machine/State.lean ====
section
/-! DEFINITION. The state of `KEELOQ_CORE` as plain data: the five registers of 10_state.md R15, and the model's own
three fields (the parameter, the host's coming inputs, and the index of the free values). The block has no memory, no
program counter and no addressable register (10_state.md R25, R26; 20_memory.md R32). -/

namespace Sys2Proof.Machine

/-- Where the block is in its operation (10_state.md R21). Its encoding as bits is not observable
(93_implementation_defined.md U5), so the model keeps the three names. -/
inductive Phase where
  /-- No operation has been accepted since reset. -/
  | idle
  /-- An operation is in flight. -/
  | busy
  /-- The last accepted operation has completed and its result is in `BLK`. -/
  | done
deriving DecidableEq, Repr

/-- The inputs sampled at one edge (30_encoding.md R43, R45). `clk` is the step itself. -/
structure PortIn where
  /-- `rst`: synchronous reset, active high. -/
  rst : Bool
  /-- `start`: a command is requested at this edge. -/
  start : Bool
  /-- `mode`: the direction of the requested command. -/
  mode : BitVec 1
  /-- `block_in`: the block operand. -/
  blockIn : Block
  /-- `key_in`: the key operand. -/
  keyIn : Key
deriving DecidableEq, Repr

/-- The state of one instance of the block. -/
structure State where
  /-- `BLK[31:0]`, the non-linear feedback shift register (10_state.md R16). -/
  blk : Block
  /-- `KEY[63:0]`, the circular key register (10_state.md R17). -/
  key : Key
  /-- `MODE`, the direction of the operation in flight or last completed (10_state.md R18). -/
  mode : Mode
  /-- `CNT[9:0]`, the rounds done so far in the current operation (10_state.md R20). -/
  cnt : Count
  /-- `PHASE` (10_state.md R21). -/
  phase : Phase
  /-- The model's own: the implementation's parameters, which no step changes (00_scope.md R7; log entry 3). -/
  config : Config
  /-- The model's own: the input vectors the host drives at the coming edges, the next edge's first
  (30_encoding.md R55; log entry 4). -/
  inputs : List PortIn
  /-- The model's own: how many times the free values of Config have been drawn (log entry 2). -/
  draws : Nat
deriving DecidableEq, Repr

/-- Why the machine stops with a fault: never. The block raises no exception: "No command, operand value or sequence
of inputs causes a trap, fault, error code or stall" (60_exceptions.md R83). So this type has no constructor. -/
inductive Fault where
deriving DecidableEq, Repr

/-- Why an answer is refused. No step of this model refuses. -/
inductive Refusal where
  /-- An instruction of the opcode table with no meaning yet. Raised only by a refused arm of `exec`, of which this
  model has none. Safe: nothing is claimed of such an instruction. -/
  | notModelled (mnemonic : String)
  /-- `block_out` is read while `done = 0`, where it has no value. Raised by the host's `READ`
  (Machine/HostProgram.lean), never by a step. Safe: the spec says a model must refuse the read (70_reset_and_hazards.md
  R108, 93_implementation_defined.md U2). -/
  | blockOutHasNoValue
deriving DecidableEq, Repr

/-- The state right after reset: `PHASE = IDLE` and `CNT = 0` (10_state.md R31). The spec leaves `BLK`, `KEY` and `MODE`
unspecified; the values here are the model's (log entry 1, DESIGN CHOICE), and no statement rests on them. The host
has driven nothing yet (log entry 4), and the parameter has its reference value (log entry 3). -/
def State.reset : State where
  blk := 0
  key := 0
  mode := .encrypt
  cnt := 0
  phase := .idle
  config := Config.reference
  inputs := []
  draws := 0

end Sys2Proof.Machine
end

