-- ==== Sys2Proof/Machine/Operands.lean ====
section
/-! DEFINITION. Every operand form of the block: the operands of a command as the ports carry them (30_encoding.md R47,
R50), and the only operand assembly inside an operation, the 5-bit NLF index (40_datapath.md R58, R59). -/

namespace Sys2Proof.Machine

/-- The packed word of the operand inputs, `{key_in, block_in, mode}` (30_encoding.md R48, R50). -/
def PortIn.cmd (p : PortIn) : CmdWord :=
  packCmd p.mode p.blockIn p.keyIn

/-- The inputs at an edge that requests a command: `rst = 0`, `start = 1` and the operands (30_encoding.md R54). -/
def PortIn.request (m : Mode) (b : Block) (k : Key) : PortIn :=
  { rst := false, start := true, mode := m.toBit, blockIn := b, keyIn := k }

/-- The inputs at an edge that requests a given command (30_encoding.md R55). -/
def PortIn.ofInstr : Instr → PortIn
  | .encrypt b k => PortIn.request .encrypt b k
  | .decrypt b k => PortIn.request .decrypt b k

/-- The inputs at an edge with neither reset nor request, a `NOP`: its other inputs are don't-care (30_encoding.md R54),
and no step reads them (log entry 7). -/
def PortIn.nop : PortIn :=
  { rst := false, start := false, mode := 0, blockIn := 0, keyIn := 0 }

/-- The inputs at a reset edge, a `RESET`: its other inputs are don't-care (30_encoding.md R54), and no step reads
them (log entry 7). -/
def PortIn.reset : PortIn :=
  { rst := true, start := false, mode := 0, blockIn := 0, keyIn := 0 }

/-- `EncIndex(x) = { x[31], x[26], x[20], x[9], x[1] }` (40_datapath.md R58, the taps of 90_conflicts.md C1). -/
def encIndex (x : Block) : NlfIndex :=
  BitVec.ofBool x[31] ++ BitVec.ofBool x[26] ++ BitVec.ofBool x[20] ++ BitVec.ofBool x[9] ++ BitVec.ofBool x[1]

/-- `DecIndex(x) = { x[30], x[25], x[19], x[8], x[0] }` (40_datapath.md R59, the taps of 90_conflicts.md C2). -/
def decIndex (x : Block) : NlfIndex :=
  BitVec.ofBool x[30] ++ BitVec.ofBool x[25] ++ BitVec.ofBool x[19] ++ BitVec.ofBool x[8] ++ BitVec.ofBool x[0]

end Sys2Proof.Machine
end

