-- ==== Sys2Proof/Machine/Ops.lean ====
section
/-! DEFINITION. The shared operations: the datapath of one round (40_datapath.md), and what can happen to the state at
one edge (41_cipher_operations.md R71). The block has no exception, so there is no operation that takes one or returns
from one (60_exceptions.md R83, R87, R88), and no memory, so there is none over memory (20_memory.md R32). -/

namespace Sys2Proof.Machine

/-! ### The datapath of one round -/

/-- `NLF_CONST`, the non-linear function table as a constant (10_state.md R19). -/
def nlfConst : BitVec 32 := 0x3A5C742E

/-- `NLF(i)`: entry `i` of the table is bit `i` of the constant (40_datapath.md R56). -/
def nlf (i : NlfIndex) : Bool := nlfConst.getLsbD i.toNat

/-- The encrypt feedback bit (40_datapath.md R60). -/
def encFeedback (x : Block) (k : Key) : Bool :=
  x[16] ^^ x[0] ^^ nlf (encIndex x) ^^ k[0]

/-- The decrypt feedback bit (40_datapath.md R62). -/
def decFeedback (x : Block) (k : Key) : Bool :=
  x[31] ^^ x[15] ^^ nlf (decIndex x) ^^ k[15]

/-- `EncRound`: the block shifts right with the feedback as its new bit 31, the key rotates right by one; both are
computed from the old block and the old key (40_datapath.md R61). -/
def encRound (x : Block × Key) : Block × Key :=
  (BitVec.cons (encFeedback x.1 x.2) (x.1.extractLsb' 1 31), x.2.rotateRight 1)

/-- `DecRound`: the block shifts left with the feedback as its new bit 0, the key rotates left by one (40_datapath.md
R63). -/
def decRound (x : Block × Key) : Block × Key :=
  (BitVec.concat (x.1.extractLsb' 0 31) (decFeedback x.1 x.2), x.2.rotateLeft 1)

/-- The round function a direction selects (41_cipher_operations.md R71). -/
def roundOf : Mode → Block × Key → Block × Key
  | .encrypt => encRound
  | .decrypt => decRound

/-- `n` rounds of a direction: `f^n`, with `f^0(s) = s` (00_scope.md R12, 40_datapath.md R66). -/
def rounds (m : Mode) : Nat → Block × Key → Block × Key
  | 0, x => x
  | n + 1, x => roundOf m (rounds m n x)

/-! ### What an edge does to the state -/

/-- An accepted command: load the operands, `CNT <- 0`, `PHASE <- BUSY`, and perform no round
(41_cipher_operations.md R71). -/
def State.accept (s : State) (m : Mode) (b : Block) (k : Key) : State :=
  { s with blk := b, key := k, mode := m, cnt := 0, phase := .busy }

/-- `CNT + U`, unsigned in 10 bits (41_cipher_operations.md R72). -/
def State.nextCount (s : State) : Count :=
  s.cnt + BitVec.ofNat 10 s.config.roundsPerCycle

/-- A round step: U rounds of the direction in `MODE`, `CNT <- CNT + U`, and `PHASE <- DONE` exactly when the new
`CNT` is 528 (41_cipher_operations.md R71, R72). -/
def State.roundStep (s : State) : State :=
  { s with
    blk := (rounds s.mode s.config.roundsPerCycle (s.blk, s.key)).1
    key := (rounds s.mode s.config.roundsPerCycle (s.blk, s.key)).2
    cnt := s.nextCount
    phase := if s.nextCount = BitVec.ofNat 10 Config.rounds then .done else s.phase }

/-- A reset edge: `PHASE <- IDLE`, `CNT <- 0`; `BLK`, `KEY` and `MODE` are unspecified and take free values
(70_reset_and_hazards.md R95, 10_state.md R31; log entry 2). -/
def State.resetEdge (s : State) : State :=
  { s with
    blk := Config.resetBlk s.draws
    key := Config.resetKey s.draws
    mode := Config.resetMode s.draws
    cnt := 0
    phase := .idle
    draws := s.draws + 1 }

/-- An edge with `rst = 0` that accepts no command: a round step in `BUSY`, no change in `IDLE` and `DONE`
(41_cipher_operations.md R71). -/
def State.quietEdge (s : State) : State :=
  match s.phase with
  | .busy => s.roundStep
  | .idle => s
  | .done => s

/-- An edge with `rst = 0` and `start = 1`: accepted in `IDLE` and `DONE`; in `BUSY` the request is dropped and the
round step is performed (30_encoding.md R46, 70_reset_and_hazards.md R100). -/
def State.requestEdge (s : State) (m : Mode) (b : Block) (k : Key) : State :=
  match s.phase with
  | .busy => s.roundStep
  | .idle => s.accept m b k
  | .done => s.accept m b k

/-! ### Sampling the inputs -/

/-- The inputs sampled at the next edge. When the host's list has run out, no reset and no request is driven
(log entry 4, DESIGN CHOICE). -/
def State.sampled (s : State) : PortIn :=
  match s.inputs with
  | [] => PortIn.nop
  | p :: _ => p

/-- The inputs of this edge are past. -/
def State.advanceInputs (s : State) : State :=
  { s with inputs := s.inputs.tail }

/-- The host drives `p` at the next edge, before what it was going to drive. -/
def State.present (s : State) (p : PortIn) : State :=
  { s with inputs := p :: s.inputs }

/-- The host drives `p` at the next edge, in place of what it was going to drive there. -/
def State.replaceNext (s : State) (p : PortIn) : State :=
  { s with inputs := p :: s.inputs.tail }

end Sys2Proof.Machine
end

