-- ==== Sys2Proof/Machine/Flags.lean ====
section
/-! DEFINITION. The outputs: functions of the state alone (30_encoding.md R45). `busy` and `done` are the block's only
flags (10_state.md R27), and reading an output changes nothing (20_memory.md R36). -/

namespace Sys2Proof.Machine

/-- `busy = 1` exactly when `PHASE = BUSY` (10_state.md R22). -/
def State.busy (s : State) : Bool := decide (s.phase = .busy)

/-- `done = 1` exactly when `PHASE = DONE` (10_state.md R23). -/
def State.done (s : State) : Bool := decide (s.phase = .done)

/-- `STATUS[1:0] = {done, busy}`, a name for the two outputs as a word (10_state.md R28). -/
def State.status (s : State) : BitVec 2 :=
  BitVec.ofBool s.done ++ BitVec.ofBool s.busy

/-- `block_out`: `BLK` when `PHASE = DONE`, and no value otherwise (10_state.md R24; log entry 5). -/
def State.blockOut (s : State) : Option Block :=
  match s.phase with
  | .done => some s.blk
  | .idle => none
  | .busy => none

/-- `nlf_const`: the NLF table constant, driven at all times (10_state.md R19). -/
def State.nlfConstOut (_s : State) : BitVec 32 := nlfConst

/-- Everything a claim may observe of the block (70_reset_and_hazards.md R108). -/
structure Outputs where
  busy : Bool
  done : Bool
  /-- `none` where `block_out` has no value. -/
  blockOut : Option Block
  nlfConst : BitVec 32
deriving DecidableEq, Repr

/-- The output ports in a state (30_encoding.md R43, R45). -/
def State.outputs (s : State) : Outputs :=
  { busy := s.busy, done := s.done, blockOut := s.blockOut, nlfConst := s.nlfConstOut }

end Sys2Proof.Machine
end

