-- ==== Sys2Proof/Machine/Cipher.lean ====
section
/-! DEFINITION. The two commands (41_cipher_operations.md): the functions they compute, at the functional level
(00_scope.md R13), and what the edge that requests one does, at the cycle level. -/

namespace Sys2Proof.Machine

/-- `Encrypt(b, k)`: the block after 528 encrypt rounds (41_cipher_operations.md R69). -/
def encryptBlock (b : Block) (k : Key) : Block := (rounds .encrypt Config.rounds (b, k)).1

/-- `Decrypt(b, k)`: the block after 528 decrypt rounds from the same key, not a rotated one
(41_cipher_operations.md R70, R75). -/
def decryptBlock (b : Block) (k : Key) : Block := (rounds .decrypt Config.rounds (b, k)).1

/-- `ENCRYPT b, k`: the edge that requests it (41_cipher_operations.md R67). In `IDLE` and `DONE` it is accepted; in
`BUSY` it is dropped. The 528 rounds follow at the later edges, in `State.roundStep`. -/
def execEncrypt (b : Block) (k : Key) (s : State) : Host.Outcome State Fault Refusal :=
  .next (s.requestEdge .encrypt b k)

/-- `DECRYPT b, k`: the edge that requests it (41_cipher_operations.md R68), accepted and dropped as `ENCRYPT` is. The
key is loaded as given (R75). -/
def execDecrypt (b : Block) (k : Key) (s : State) : Host.Outcome State Fault Refusal :=
  .next (s.requestEdge .decrypt b k)

end Sys2Proof.Machine
end

