-- ==== Sys2Proof/Machine/Dispatch.lean ====
section
/-! DEFINITION. One arm per command of spec/opcode_table.json; each has its meaning. -/

namespace Sys2Proof.Machine

def exec (i : Instr) (s : State) : Host.Outcome State Fault Refusal :=
  match i with
  | .encrypt b k => Sys2Proof.Machine.execEncrypt b k s
  | .decrypt b k => Sys2Proof.Machine.execDecrypt b k s

end Sys2Proof.Machine
end

