-- ==== Sys2Proof/Machine/Step.lean ====
section
/-! DEFINITION. One active clock edge (41_cipher_operations.md R71, 60_exceptions.md R86): sample the inputs; reset
wins; otherwise a `start` requests the command the operand inputs name; otherwise the edge is quiet. -/

namespace Sys2Proof.Machine

/-- One edge. It never faults and never refuses (60_exceptions.md R83). -/
def step (s : State) : Host.Outcome State Fault Refusal :=
  if s.sampled.rst then .next s.advanceInputs.resetEdge
  else if s.sampled.start then exec (decode s.sampled.cmd) s.advanceInputs
  else .next s.advanceInputs.quietEdge

/-- The state in which the host drives, at the next edge, the command whose packed word has `w` as its low `nbits`
bits and zeros above: the very next `step` runs it. The block fetches nothing (20_memory.md R41), so this is what
placing an instruction means here (log entry 4). A number that is no command word has no input vector and leaves the
state as it is. -/
def State.withFetchWord (s : State) (nbits w : Nat) : State :=
  match decodeTableWord nbits w with
  | some i => s.replaceNext (PortIn.ofInstr i)
  | none => s

end Sys2Proof.Machine
end

