-- ==== Sys2Proof/Machine/HostProgram.lean ====
section
/-! DEFINITION. Host programs (30_encoding.md R54, R55): the notation, and what each statement does with the ports.
`ENCRYPT`, `DECRYPT`, `NOP` and `RESET` drive edges; `READ` and `EXPECT` drive none; `WAIT`, `RUNENC` and `RUNDEC`
expand. None of this is a part of the block: it is the second agent of 20_memory.md R38. -/

namespace Sys2Proof.Machine

/-- An operand of a host statement: a number, or a host name bound by an earlier `READ` or `RUN` (30_encoding.md R54). -/
inductive Operand where
  | lit (n : Nat)
  | name (x : String)
deriving DecidableEq, Repr

/-- What an `EXPECT` asserts: a value of `busy`, of `done`, or of a host name (30_encoding.md R54). -/
inductive Cond where
  | busy (v : Bool)
  | done (v : Bool)
  | name (x : String) (v : Operand)
deriving DecidableEq, Repr

/-- The statements of the host-program notation (30_encoding.md R54). -/
inductive Stmt where
  | encrypt (b k : Operand)
  | decrypt (b k : Operand)
  | nop (n : Nat)
  | reset
  | read (r : String)
  | expect (c : Cond)
  | wait
  | runEnc (b k : Operand) (r : String)
  | runDec (b k : Operand) (r : String)
deriving DecidableEq, Repr

/-- Why a host program stops before its last statement. -/
inductive HostStop where
  /-- The machine, or a `READ` with `done = 0`, refused. Safe: 70_reset_and_hazards.md R108. -/
  | refused (r : Refusal)
  /-- A literal does not fit its place (00_scope.md R9). Safe: the spec gives such a program no meaning. -/
  | literalTooWide (width n : Nat)
  /-- A host name is used that no earlier `READ` or `RUN` bound (30_encoding.md R54). Safe: it has no value. -/
  | unboundName (x : String)
  /-- An `EXPECT` does not hold. Safe: it reports, and changes nothing. -/
  | expectationFailed (c : Cond)
  /-- A `WAIT` that no number of `NOP`s ends, as in `IDLE`. Safe: the spec's `WAIT` goes on for ever (log entry 8). -/
  | waitNeverEnds
deriving DecidableEq, Repr

/-- A host program in progress: the block, the host's names (the latest binding first), and the input vectors driven so
far (the latest first; 30_encoding.md R55). -/
structure HostRun where
  machine : State
  names : List (String × Block)
  driven : List PortIn
deriving DecidableEq, Repr

/-- The value of an operand in a place of `width` bits: a literal is zero-extended (00_scope.md R9), and a host name,
which holds a 32-bit block, is zero-extended in the same way (log entry 8). -/
def Operand.value (width : Nat) (names : List (String × Block)) : Operand → Except HostStop (BitVec width)
  | .lit n => if literalFits width n then .ok (BitVec.ofNat width n) else .error (.literalTooWide width n)
  | .name x =>
    match names.lookup x with
    | some v => .ok (v.setWidth width)
    | none => .error (.unboundName x)

/-- One edge with the inputs `p`. -/
def HostRun.drive (h : HostRun) (p : PortIn) : Except HostStop HostRun :=
  match step (h.machine.present p) with
  | .next s => .ok { h with machine := s, driven := p :: h.driven }
  | .fault r => nomatch r
  | .refused r => .error (.refused r)

/-- One edge that requests a command. -/
def HostRun.request (h : HostRun) (m : Mode) (b k : Operand) : Except HostStop HostRun :=
  match b.value 32 h.names, k.value 64 h.names with
  | .ok b, .ok k => h.drive (PortIn.request m b k)
  | .error e, _ => .error e
  | _, .error e => .error e

/-- `NOP n`: `n` edges with neither reset nor request. -/
def HostRun.nops (h : HostRun) : Nat → Except HostStop HostRun
  | 0 => .ok h
  | n + 1 =>
    match h.drive PortIn.nop with
    | .ok h' => h'.nops n
    | .error e => .error e

/-- `WAIT` with at most `n` edges: `NOP 1` repeated while `done = 0`, and none if `done = 1` already. -/
def HostRun.waitUpTo (h : HostRun) : Nat → Except HostStop HostRun
  | 0 => if h.machine.done then .ok h else .error .waitNeverEnds
  | n + 1 =>
    if h.machine.done then .ok h
    else
      match h.drive PortIn.nop with
      | .ok h' => h'.waitUpTo n
      | .error e => .error e

/-- `WAIT`. The 10-bit `CNT` comes back to a value it has had within 1024 round steps, so a `WAIT` that 1024 edges do
not end never ends (log entry 8); from a reachable `BUSY` state at most 528 are needed (70_reset_and_hazards.md R105). -/
def HostRun.wait (h : HostRun) : Except HostStop HostRun := h.waitUpTo 1024

/-- `READ r`: sample `block_out` into `r`; refused while `done = 0` (30_encoding.md R54, 70_reset_and_hazards.md R108). -/
def HostRun.read (h : HostRun) (r : String) : Except HostStop HostRun :=
  match h.machine.blockOut with
  | some v => .ok { h with names := (r, v) :: h.names }
  | none => .error (.refused .blockOutHasNoValue)

/-- Whether an `EXPECT`'s condition holds. -/
def HostRun.holds (h : HostRun) : Cond → Except HostStop Bool
  | .busy v => .ok (h.machine.busy == v)
  | .done v => .ok (h.machine.done == v)
  | .name x v =>
    match (Operand.name x).value 32 h.names, v.value 32 h.names with
    | .ok a, .ok b => .ok (a == b)
    | .error e, _ => .error e
    | _, .error e => .error e

/-- `EXPECT cond`. -/
def HostRun.expect (h : HostRun) (c : Cond) : Except HostStop HostRun :=
  match h.holds c with
  | .ok true => .ok h
  | .ok false => .error (.expectationFailed c)
  | .error e => .error e

/-- `ENCRYPT b, k` or `DECRYPT b, k`, then `WAIT`, then `READ r`: what `RUNENC` and `RUNDEC` expand to
(30_encoding.md R54). -/
def HostRun.runCommand (h : HostRun) (m : Mode) (b k : Operand) (r : String) : Except HostStop HostRun :=
  match h.request m b k with
  | .error e => .error e
  | .ok h₁ =>
    match h₁.wait with
    | .error e => .error e
    | .ok h₂ => h₂.read r

/-- What one statement does (30_encoding.md R54). -/
def HostRun.exec (h : HostRun) : Stmt → Except HostStop HostRun
  | .encrypt b k => h.request .encrypt b k
  | .decrypt b k => h.request .decrypt b k
  | .nop n => h.nops n
  | .reset => h.drive PortIn.reset
  | .read r => h.read r
  | .expect c => h.expect c
  | .wait => h.wait
  | .runEnc b k r => h.runCommand .encrypt b k r
  | .runDec b k r => h.runCommand .decrypt b k r

/-- A host program: its statements run in order, each once (30_encoding.md R54). -/
def HostRun.program (h : HostRun) : List Stmt → Except HostStop HostRun
  | [] => .ok h
  | st :: rest =>
    match h.exec st with
    | .ok h' => h'.program rest
    | .error e => .error e

/-- A host that has done nothing yet, beside a block in the state `s`. -/
def HostRun.start (s : State) : HostRun := { machine := s, names := [], driven := [] }

end Sys2Proof.Machine
end

