-- ==== Sys2Proof/Safety.lean ====
section
/-! DEFINITION. The terms in which claims about the block are made: runs of several edges, the reachable-state
invariant, the acceptance of a command, the history an operation leaves in the registers, and which values a claim may
not rest on. -/

namespace Sys2Proof.Machine

/-- `n` edges, stopping at the first that does not answer a next state. It is `Host.Core.run` of `Sys2Proof.core`
(Laws/Step.lean, `runEdges_eq_core_run`), written over the model's own types. -/
def runEdges : Nat → State → Host.Outcome State Fault Refusal
  | 0, s => .next s
  | n + 1, s =>
    match step s with
    | .next t => runEdges n t
    | .fault r => .fault r
    | .refused r => .refused r

/-- The reachable-state invariant of 10_state.md R30, with the parameter's own condition (00_scope.md R7). -/
abbrev State.Inv (s : State) : Prop :=
  s.config.wf = true ∧
  (s.phase = .idle → s.cnt = 0) ∧
  (s.phase = .busy → s.config.roundsPerCycle ∣ s.cnt.toNat ∧ s.cnt.toNat < 528) ∧
  (s.phase = .done → s.cnt.toNat = 528)

/-- What the registers say of the operation on `(b, k)` (10_state.md R29): while `BUSY` with `CNT = n`, `BLK` and `KEY`
are the state after `n` rounds; in `DONE`, after all 528. -/
abbrev State.Carries (s : State) (m : Mode) (b : Block) (k : Key) : Prop :=
  s.mode = m ∧ s.phase ≠ .idle ∧ (s.blk, s.key) = rounds m s.cnt.toNat (b, k)

/-- The edge that samples `p` in `s` accepts a command (30_encoding.md R46). -/
abbrev State.Accepts (s : State) (p : PortIn) : Prop :=
  p.rst = false ∧ p.start = true ∧ s.phase ≠ .busy

/-- Equal but for what the spec leaves unspecified after a reset (10_state.md R31): `BLK`, `KEY` and `MODE` may differ
while both are in `IDLE`, and the model's count of free values may differ anywhere. -/
abbrev State.SameSpecified (s t : State) : Prop :=
  s.phase = t.phase ∧ s.cnt = t.cnt ∧ s.config = t.config ∧ s.inputs = t.inputs ∧
  (s.phase = .idle ∨ (s.blk = t.blk ∧ s.key = t.key ∧ s.mode = t.mode))

end Sys2Proof.Machine
end

