-- ==== Sys2Proof/Certificates/Slice0/Obligations.lean ====
section
/-! DEFINITION. The statements for the provers. Each formalises what a numbered rule of spec/ says the block does, or
what follows from such rules; its docstring names them. In statements over several edges the inputs are given
explicitly, so that none but `ExhaustedInputsAreQuiet` rests on what the model does when the host's list runs out. -/

open Sys2Proof Sys2Proof.Machine

/-! ### Encoding -/

/-- Packed words listed in 95_test_vectors.md (V-E) decode to the commands listed there. -/
def Obligations.ListedWordsDecodeAsListed : Prop :=
  decode 0x00000000195FDA01A2468ACF0 = .encrypt 0x12345678 0xCAFED00D ∧
  decode 0x00000000195FDA01BA1F650F9 = .decrypt 0xD0FB287C 0xCAFED00D ∧
  decode 0x0B9D8CE036F3FB293EE83C5B6 = .encrypt 0xF741E2DB 0x5CEC6701B79FD949 ∧
  decode 0x0B9D8CE036F3FB293C89E99BF = .decrypt 0xE44F4CDF 0x5CEC6701B79FD949 ∧
  decode 0x0000000000000000000000000 = .encrypt 0 0

/-- R48: `CMD[0]` is the mode, `CMD[32:1]` the block, `CMD[96:33]` the key, bit by bit; and the rule's example. -/
def Obligations.PackedWordHasFieldsInPlace : Prop :=
  (∀ (b : Block) (k : Key),
    (encode (.encrypt b k)).getLsbD 0 = false ∧
    (encode (.decrypt b k)).getLsbD 0 = true ∧
    (∀ i < 32, (encode (.encrypt b k)).getLsbD (1 + i) = b.getLsbD i) ∧
    (∀ i < 32, (encode (.decrypt b k)).getLsbD (1 + i) = b.getLsbD i) ∧
    (∀ i < 64, (encode (.encrypt b k)).getLsbD (33 + i) = k.getLsbD i) ∧
    (∀ i < 64, (encode (.decrypt b k)).getLsbD (33 + i) = k.getLsbD i)) ∧
  encode (.encrypt 0x12345678 0xCAFED00D) = 0x00000000195FDA01A2468ACF0

/-- R48, R53: decoding the packed word of any command gives it back, as a word, as a number, and in the numbering of
the opcode table at every width that holds the 97 bits. -/
def Obligations.DecodeUndoesEncode : Prop :=
  ∀ i : Instr,
    decode (encode i) = i ∧
    decodeNat (encode i).toNat = .ok i ∧
    ∀ nbits, 97 ≤ nbits → decodeTableWord nbits (encode i).toNat = some i

/-- R51, R53: every 97-bit word is the word of exactly the command it decodes to, and `CMD[0]` alone tells the two
commands apart. The last clause is the model's own and no rule's: that a number of 2^97 or more is rejected as
`wordTooWide` is log entry 9 (DEDUCED from `CMD` having 97 bits). -/
def Obligations.EveryWordIsOneCommand : Prop :=
  (∀ w : CmdWord, encode (decode w) = w) ∧
  (∀ w : CmdWord, (∃ b k, decode w = .encrypt b k) ↔ w.getLsbD 0 = false) ∧
  (∀ w : CmdWord, (∃ b k, decode w = .decrypt b k) ↔ w.getLsbD 0 = true) ∧
  (∀ n : Nat, 2 ^ 97 ≤ n → decodeNat n = .error .wordTooWide)

/-! ### The datapath of one round -/

/-- R56, R57: entry `i` of the NLF is bit `i` of `0x3A5C742E`; the entries that are 1 are the sixteen listed. -/
def Obligations.NlfHasTheTruthTable : Prop :=
  ∀ i : NlfIndex,
    nlf i = (0x3A5C742E : BitVec 32).getLsbD i.toNat ∧
    (nlf i = true ↔ i.toNat ∈ [1, 2, 3, 5, 10, 12, 13, 14, 18, 19, 20, 22, 25, 27, 28, 29])

/-- R58, R59: the taps of the two indices, bit by bit; each decrypt tap is the encrypt tap less one. -/
def Obligations.NlfIndexTaps : Prop :=
  ∀ x : Block,
    ((encIndex x)[0] = x[1] ∧ (encIndex x)[1] = x[9] ∧ (encIndex x)[2] = x[20] ∧ (encIndex x)[3] = x[26] ∧
      (encIndex x)[4] = x[31]) ∧
    ((decIndex x)[0] = x[0] ∧ (decIndex x)[1] = x[8] ∧ (decIndex x)[2] = x[19] ∧ (decIndex x)[3] = x[25] ∧
      (decIndex x)[4] = x[30]) ∧
    decIndex x = encIndex (x <<< 1)

/-- R60, R61: the encrypt round, bit by bit and in the rule's shift form, with its corner cases and its example. -/
def Obligations.EncryptRoundIsTheRule : Prop :=
  (∀ (x : Block) (k : Key),
    (∀ i < 31, (encRound (x, k)).1.getLsbD i = x.getLsbD (i + 1)) ∧
    (encRound (x, k)).1[31] = (x[16] ^^ x[0] ^^ nlf (encIndex x) ^^ k[0]) ∧
    (encRound (x, k)).1 =
      ((x >>> 1) ||| ((BitVec.ofBool (x[16] ^^ x[0] ^^ nlf (encIndex x) ^^ k[0])).setWidth 32 <<< 31)) ∧
    (∀ i < 63, (encRound (x, k)).2.getLsbD i = k.getLsbD (i + 1)) ∧
    (encRound (x, k)).2[63] = k[0]) ∧
  (∀ k : Key, encFeedback 0 k = k[0] ∧ encFeedback 0xFFFFFFFF k = k[0]) ∧
  (encIndex 0x12345678 = 6 ∧ nlf 6 = false ∧ encFeedback 0x12345678 0xCAFED00D = true) ∧
  encRound (0x12345678, 0xCAFED00D) = (0x891A2B3C, 0x80000000657F6806)

/-- R62, R63: the decrypt round, bit by bit and in the rule's shift form, with its corner cases and its example. -/
def Obligations.DecryptRoundIsTheRule : Prop :=
  (∀ (x : Block) (k : Key),
    (∀ i < 31, (decRound (x, k)).1.getLsbD (i + 1) = x.getLsbD i) ∧
    (decRound (x, k)).1[0] = (x[31] ^^ x[15] ^^ nlf (decIndex x) ^^ k[15]) ∧
    (decRound (x, k)).1 =
      ((x <<< 1) ||| (BitVec.ofBool (x[31] ^^ x[15] ^^ nlf (decIndex x) ^^ k[15])).setWidth 32) ∧
    (∀ i < 63, (decRound (x, k)).2.getLsbD (i + 1) = k.getLsbD i) ∧
    (decRound (x, k)).2[0] = k[63]) ∧
  (∀ k : Key, decFeedback 0 k = k[15] ∧ decFeedback 0xFFFFFFFF k = k[15]) ∧
  (decIndex 0xD0FB287C = 20 ∧ nlf 20 = true ∧ decFeedback 0xD0FB287C 0xCAFED00D = true) ∧
  decRound (0xD0FB287C, 0xCAFED00D) = (0xA1F650F9, 0x0000000195FDA01A)

/-- R65: the per-round inverse laws, for every block and key. -/
def Obligations.RoundsUndoEachOther : Prop :=
  ∀ (x : Block) (k : Key),
    (decRound ((encRound (x, k)).1, (encRound (x, k)).2.rotateLeft 16)).1 = x ∧
    (encRound ((decRound (x, k)).1, (decRound (x, k)).2.rotateRight 16)).1 = x

/-- R64: the key register after `r` rounds, the one key bit round `r` uses (`k[r mod 64]`, `k[(15 - r) mod 64]`; the
index `15 + 63 r` is `15 - r` modulo 64), and that no other key bit enters a round. -/
def Obligations.KeySchedule : Prop :=
  (∀ (r : Nat) (x : Block) (k : Key),
    (rounds .encrypt r (x, k)).2 = k.rotateRight r ∧
    (rounds .encrypt r (x, k)).2[0] = k.getLsbD (r % 64) ∧
    (rounds .decrypt r (x, k)).2 = k.rotateLeft r ∧
    (rounds .decrypt r (x, k)).2[15] = k.getLsbD ((15 + 63 * r) % 64)) ∧
  (∀ (x : Block) (k k' : Key), k[0] = k'[0] → (encRound (x, k)).1 = (encRound (x, k')).1) ∧
  (∀ (x : Block) (k k' : Key), k[15] = k'[15] → (decRound (x, k)).1 = (decRound (x, k')).1)

/-! ### The functions of the two commands -/

/-- R69, R70: 528 applications of the round function from the command's block and key, taking the block part. -/
def Obligations.CipherIsIteratedRounds : Prop :=
  ∀ (b : Block) (k : Key),
    encryptBlock b k = (encRound^[528] (b, k)).1 ∧
    decryptBlock b k = (decRound^[528] (b, k)).1

/-- R82: all zeros, and all ones under the all-ones key, are fixed points of any number of rounds in both directions,
so both commands return them. -/
def Obligations.BoundaryBlocksAreFixedPoints : Prop :=
  (∀ (m : Mode) (n : Nat),
    rounds m n (0, 0) = (0, 0) ∧
    rounds m n (0xFFFFFFFF, 0xFFFFFFFFFFFFFFFF) = (0xFFFFFFFF, 0xFFFFFFFFFFFFFFFF)) ∧
  encryptBlock 0 0 = 0 ∧ decryptBlock 0 0 = 0 ∧
  encryptBlock 0xFFFFFFFF 0xFFFFFFFFFFFFFFFF = 0xFFFFFFFF ∧
  decryptBlock 0xFFFFFFFF 0xFFFFFFFFFFFFFFFF = 0xFFFFFFFF ∧
  (encIndex 0 = 0 ∧ decIndex 0 = 0 ∧ nlf 0 = false) ∧
  (encIndex 0xFFFFFFFF = 31 ∧ decIndex 0xFFFFFFFF = 31 ∧ nlf 31 = false)

/-- R76: decrypt round `s` undoes encrypt round `527 - s`; after `s` decrypt rounds from the ciphertext and the same
key, the block is the encrypt block after `528 - s` rounds and the key is `rotl(k, s)`; both rounds read the same key
bit. -/
def Obligations.DecryptRoundsMirrorEncryptRounds : Prop :=
  ∀ (b : Block) (k : Key),
    (∀ s ≤ 528,
      rounds .decrypt s ((rounds .encrypt 528 (b, k)).1, k) =
        ((rounds .encrypt (528 - s) (b, k)).1, k.rotateLeft s)) ∧
    (∀ s < 528,
      (rounds .decrypt s ((rounds .encrypt 528 (b, k)).1, k)).2[15] = (rounds .encrypt (527 - s) (b, k)).2[0] ∧
      (15 + 63 * s) % 64 = (527 - s) % 64)

/-- R77: the round-trip invariant, for every block and key; and at the cycle level: an `ENCRYPT b, k` accepted in any
state, then a `DECRYPT` of its `block_out` under `k`, with no reset between, ends with `block_out = b`. -/
def Obligations.EncryptThenDecryptIsIdentity : Prop :=
  (∀ (b : Block) (k : Key),
    decryptBlock (encryptBlock b k) k = b ∧ encryptBlock (decryptBlock b k) k = b) ∧
  (∀ (s : State) (b c : Block) (k : Key) (ps qs : List PortIn),
    s.config.wf = true → s.phase ≠ .busy →
    s.inputs = PortIn.request .encrypt b k :: ps ++ PortIn.request .decrypt c k :: qs →
    ps.length = 528 / s.config.roundsPerCycle → qs.length = 528 / s.config.roundsPerCycle →
    (∀ p ∈ ps ++ qs, p.rst = false) →
    ∃ t : State, runEdges (1 + 528 / s.config.roundsPerCycle) s = .next t ∧
      (t.blockOut = some c →
        ∃ u : State, runEdges (1 + 528 / s.config.roundsPerCycle) t = .next u ∧ u.blockOut = some b))

/-! ### One edge -/

/-- R71, R86: the four branches of the step, tried in order: reset, accepted command, round step, no change. -/
def Obligations.StepIsTheRegisterTransfer : Prop :=
  ∀ (s : State) (p : PortIn) (ps : List PortIn), s.inputs = p :: ps →
    ∃ t : State, step s = .next t ∧ t.config = s.config ∧ t.inputs = ps ∧
      (if p.rst = true then t.phase = .idle ∧ t.cnt = 0
       else if p.start = true ∧ s.phase ≠ .busy then
         t.blk = p.blockIn ∧ t.key = p.keyIn ∧ t.mode = (if p.mode = 0 then Mode.encrypt else Mode.decrypt) ∧
         t.cnt = 0 ∧ t.phase = .busy ∧ t.draws = s.draws
       else if s.phase = .busy then
         (t.blk, t.key) =
           (if s.mode = .encrypt then encRound else decRound)^[s.config.roundsPerCycle] (s.blk, s.key) ∧
         t.mode = s.mode ∧ t.cnt = s.cnt + BitVec.ofNat 10 s.config.roundsPerCycle ∧
         t.phase = (if s.cnt + BitVec.ofNat 10 s.config.roundsPerCycle = 528 then Phase.done else Phase.busy) ∧
         t.draws = s.draws
       else t = { s with inputs := ps })

/-- R46, R53: at an edge with `rst = 0` and `start = 1` the step is `exec` of the command the operand inputs pack to,
and the edge's inputs are past. -/
def Obligations.StepRunsTheDecodedCommand : Prop :=
  ∀ (s : State) (p : PortIn) (ps : List PortIn), s.inputs = p :: ps → p.rst = false → p.start = true →
    step s = exec (decode p.cmd) { s with inputs := ps } ∧ p.cmd = (p.keyIn ++ p.blockIn) ++ p.mode

/-- R48, R55 and log entry 4: a word placed for the next edge is run by the very next step, in every state. -/
def Obligations.PlacedWordRunsAtTheNextEdge : Prop :=
  ∀ (s : State) (nbits w : Nat) (i : Instr), decodeTableWord nbits w = some i →
    step (s.withFetchWord nbits w) = exec i { s with inputs := s.inputs.tail }

/-- R67, R68, R46: in `IDLE` and `DONE` each command completes its accepting edge: it loads `BLK`, `KEY` and `MODE`,
clears `CNT` and enters `BUSY`. -/
def Obligations.CommandsAreAcceptedUnlessBusy : Prop :=
  ∀ (s : State) (b : Block) (k : Key), s.phase ≠ .busy →
    exec (.encrypt b k) s =
      .next { s with blk := b, key := k, mode := .encrypt, cnt := 0, phase := .busy } ∧
    exec (.decrypt b k) s =
      .next { s with blk := b, key := k, mode := .decrypt, cnt := 0, phase := .busy }

/-- R100: in `BUSY` either command, whatever its operands, is dropped: the state after the edge is the one a quiet edge
gives, which is the operation in flight carried on, with `MODE` as it was. -/
def Obligations.CommandsWhileBusyAreDropped : Prop :=
  ∀ (s : State) (i : Instr) (p : PortIn), s.phase = .busy → p.rst = false → p.start = false →
    exec i s = step (s.present p) ∧
    ∃ t : State, exec i s = .next t ∧ t.mode = s.mode ∧ t.phase ≠ .idle ∧
      (t.blk, t.key) = rounds s.mode s.config.roundsPerCycle (s.blk, s.key)

/-- R36, R103: inputs that no accepted command samples have no effect: at a reset edge none but `rst`, in `BUSY` not
even `start`, and with `start = 0` no operand. -/
def Obligations.UnsampledInputsHaveNoEffect : Prop :=
  ∀ (s : State) (p q : PortIn) (ps : List PortIn), p.rst = q.rst →
    (p.rst = true ∨ s.phase = .busy ∨ (p.start = false ∧ q.start = false)) →
    step { s with inputs := p :: ps } = step { s with inputs := q :: ps }

/-- Frame of both commands (R15 to R20, R67, R68): neither writes anything but the five registers; accepted, it writes
each as its rule says; dropped, it leaves `MODE`. The block has no memory (R32). -/
def Obligations.CommandFrame : Prop :=
  ∀ (i : Instr) (s t : State), exec i s = .next t →
    t.config = s.config ∧ t.inputs = s.inputs ∧ t.draws = s.draws ∧
    (s.phase = .busy →
      t.mode = s.mode ∧ t.cnt = s.cnt + BitVec.ofNat 10 s.config.roundsPerCycle ∧
      (t.phase = .busy ∨ t.phase = .done)) ∧
    (s.phase ≠ .busy → t.phase = .busy ∧ t.cnt = 0 ∧
      ((∃ b k, i = .encrypt b k ∧ t.blk = b ∧ t.key = k ∧ t.mode = .encrypt) ∨
       (∃ b k, i = .decrypt b k ∧ t.blk = b ∧ t.key = k ∧ t.mode = .decrypt)))

/-- R79, R83: no command in any state, and no edge in any state, ends in anything but a next state. -/
def Obligations.NothingEverStops : Prop :=
  (∀ (i : Instr) (s : State), ∃ t : State, exec i s = .next t) ∧ (∀ s : State, ∃ t : State, step s = .next t)

/-- R66: a round step of U rounds gives `BLK`, `KEY` and `CNT` as U round steps of one round do; and 528 rounds give
the same block for every U that divides 528. -/
def Obligations.UnrollingDoesNotChangeRounds : Prop :=
  (∀ (s : State) (u : Nat),
    ((State.roundStep^[u] { s with config := { roundsPerCycle := 1 } }).blk,
     (State.roundStep^[u] { s with config := { roundsPerCycle := 1 } }).key,
     (State.roundStep^[u] { s with config := { roundsPerCycle := 1 } }).cnt) =
    ((State.roundStep { s with config := { roundsPerCycle := u } }).blk,
     (State.roundStep { s with config := { roundsPerCycle := u } }).key,
     (State.roundStep { s with config := { roundsPerCycle := u } }).cnt)) ∧
  (∀ (s : State) (u : Nat), u ∣ 528 →
    (State.roundStep^[528 / u] { s with config := { roundsPerCycle := u } }).blk =
    (State.roundStep^[528] { s with config := { roundsPerCycle := 1 } }).blk)

/-- R72: from a reachable `BUSY` state the counter's 10-bit sum does not wrap and is at most 528, and without a reset
the phase becomes `DONE` exactly when it is 528. -/
def Obligations.CounterNeverWraps : Prop :=
  ∀ (s t : State) (p : PortIn) (ps : List PortIn), s.Inv → s.phase = .busy → s.inputs = p :: ps → p.rst = false →
    step s = .next t →
    t.cnt.toNat = s.cnt.toNat + s.config.roundsPerCycle ∧ t.cnt.toNat ≤ 528 ∧
    (t.phase = .done ↔ t.cnt.toNat = 528)

/-- R21: every transition of `PHASE`, and no other: into `IDLE` only by reset, into `BUSY` only by an accepted command,
into `DONE` only from `BUSY` at the edge whose count reaches 528, and no restart in `BUSY`. -/
def Obligations.PhaseTransitions : Prop :=
  ∀ (s t : State) (p : PortIn) (ps : List PortIn), s.inputs = p :: ps → step s = .next t →
    (t.phase = .idle ↔ p.rst = true ∨ (s.phase = .idle ∧ p.start = false)) ∧
    (t.phase = .busy ↔ p.rst = false ∧
      ((s.phase ≠ .busy ∧ p.start = true) ∨
       (s.phase = .busy ∧ s.cnt + BitVec.ofNat 10 s.config.roundsPerCycle ≠ 528))) ∧
    (t.phase = .done ↔ p.rst = false ∧
      ((s.phase = .done ∧ p.start = false) ∨
       (s.phase = .busy ∧ s.cnt + BitVec.ofNat 10 s.config.roundsPerCycle = 528))) ∧
    (s.phase = .busy → t.phase = .busy → t.mode = s.mode ∧
      (t.blk, t.key) = rounds s.mode s.config.roundsPerCycle (s.blk, s.key))

/-- R16 to R18, R20, R25: a register changes only at the edges its rule lists, and the parameter never changes. -/
def Obligations.RegistersAreWrittenOnlyAsListed : Prop :=
  ∀ (s t : State) (p : PortIn) (ps : List PortIn), s.inputs = p :: ps → step s = .next t →
    (t.blk ≠ s.blk → p.rst = true ∨ s.Accepts p ∨ s.phase = .busy) ∧
    (t.key ≠ s.key → p.rst = true ∨ s.Accepts p ∨ s.phase = .busy) ∧
    (t.cnt ≠ s.cnt → p.rst = true ∨ s.Accepts p ∨ s.phase = .busy) ∧
    (t.mode ≠ s.mode → p.rst = true ∨ s.Accepts p) ∧
    t.config = s.config

/-! ### Outputs -/

/-- R22 (and R19, R23, R28): `busy`, `done` and `STATUS` in each phase; `nlf_const` in every state. -/
def Obligations.StatusOutputsFollowPhase : Prop :=
  ∀ s : State,
    (s.busy = true ↔ s.phase = .busy) ∧ (s.done = true ↔ s.phase = .done) ∧
    (s.phase = .idle → s.status = 0b00) ∧ (s.phase = .busy → s.status = 0b01) ∧ (s.phase = .done → s.status = 0b10) ∧
    s.status ≠ 0b11 ∧ s.nlfConstOut = 0x3A5C742E

/-- R24, R99, R108: `block_out` has a value exactly in `DONE`, where it is `BLK`; a host's `READ` while `done = 0` is
refused. -/
def Obligations.BlockOutHasAValueOnlyInDone : Prop :=
  (∀ (s : State) (v : Block), s.blockOut = some v ↔ s.phase = .done ∧ v = s.blk) ∧
  (∀ (h : HostRun) (r : String), h.machine.done = false → h.read r = .error (.refused .blockOutHasNoValue))

/-- R45, R25, R29: the outputs depend on `PHASE` and, in `DONE`, on `BLK`, and on nothing else of the state: no output
shows `KEY`, `MODE`, `CNT`, or `BLK` outside `DONE`. -/
def Obligations.OutputsHideTheRest : Prop :=
  ∀ s t : State, s.phase = t.phase → (s.phase = .done → s.blk = t.blk) → s.outputs = t.outputs

/-- R23, R38, R94: in `IDLE` and in `DONE` the block holds its state over any number of edges with neither reset nor
request; so `done` and `block_out` stay. -/
def Obligations.StateIsHeldWhileQuiet : Prop :=
  ∀ (n : Nat) (s : State), s.phase ≠ .busy → n ≤ s.inputs.length →
    (∀ p ∈ s.inputs.take n, p.rst = false ∧ p.start = false) →
    runEdges n s = .next { s with inputs := s.inputs.drop n }

/-! ### Reset -/

/-- R31, R97: the model's initial state has the values the spec gives for reset. -/
def Obligations.ResetStateValues : Prop :=
  State.reset.phase = .idle ∧ State.reset.cnt = 0 ∧ State.reset.busy = false ∧ State.reset.done = false ∧
  State.reset.blockOut = none ∧ State.reset.nlfConstOut = 0x3A5C742E

/-- R95: after one or more edges with `rst = 1`, from any state and whatever else the inputs are, the block is in
`IDLE` with `CNT = 0` and the outputs of reset. -/
def Obligations.ResetEdgesGiveIdle : Prop :=
  ∀ (n : Nat) (s : State), n + 1 ≤ s.inputs.length → (∀ p ∈ s.inputs.take (n + 1), p.rst = true) →
    ∃ t : State, runEdges (n + 1) s = .next t ∧ t.phase = .idle ∧ t.cnt = 0 ∧ t.busy = false ∧ t.done = false ∧
      t.blockOut = none ∧ t.nlfConstOut = 0x3A5C742E ∧ t.config = s.config ∧ t.inputs = s.inputs.drop (n + 1)

/-- R96: a reset while `BUSY` abandons the operation: however many quiet edges follow, neither `busy` nor `done` is
set and no result is shown. -/
def Obligations.ResetAbandonsTheOperation : Prop :=
  ∀ (n : Nat) (s : State) (p : PortIn) (ps : List PortIn), s.phase = .busy → s.inputs = p :: ps → p.rst = true →
    n ≤ ps.length → (∀ q ∈ ps.take n, q.rst = false ∧ q.start = false) →
    ∃ t : State, runEdges (1 + n) s = .next t ∧ t.busy = false ∧ t.done = false ∧ t.blockOut = none

/-- R31, R96, U1: what the spec leaves unspecified after a reset is never observed: two states that differ only in it,
under the same inputs, show the same outputs after every number of edges, and still differ only in it. -/
def Obligations.UnspecifiedValuesAreNeverObserved : Prop :=
  ∀ (n : Nat) (s s' : State), n ≤ s.inputs.length → s.SameSpecified s' →
    ∃ t t' : State, runEdges n s = .next t ∧ runEdges n s' = .next t' ∧ t.outputs = t'.outputs ∧ t.SameSpecified t'

/-! ### Invariants -/

/-- R30 at reset. -/
def Obligations.InvariantAtReset : Prop := State.reset.Inv

/-- R30: every step keeps the reachable-state invariant, from every state that has it. -/
def Obligations.StepKeepsTheInvariant : Prop :=
  ∀ s t : State, s.Inv → step s = .next t → t.Inv

/-- R30: every state reached from a reset edge, taken in any state at all, satisfies the invariant. -/
def Obligations.StatesReachedFromResetKeepTheInvariant : Prop :=
  ∀ (n : Nat) (s : State) (p : PortIn) (ps : List PortIn), s.config.wf = true → s.inputs = p :: ps → p.rst = true →
    n ≤ ps.length → ∃ t : State, runEdges (n + 1) s = .next t ∧ t.Inv ∧ t.cnt.toNat ≤ 528

/-- R29: an edge that neither resets nor accepts keeps the registers those of the operation in flight or completed. -/
def Obligations.StepCarriesTheOperationOn : Prop :=
  ∀ (s t : State) (p : PortIn) (ps : List PortIn) (m : Mode) (b : Block) (k : Key),
    s.Inv → s.Carries m b k → s.inputs = p :: ps → p.rst = false → ¬ s.Accepts p → step s = .next t →
    t.Carries m b k

/-! ### Whole operations -/

/-- R81: after the accepting edge and each later edge before the last, the block is `BUSY`, and `CNT`, `BLK` and `KEY`
are those of the rounds done so far; whatever the host drives but a reset. -/
def Obligations.OperationInFlight : Prop :=
  ∀ (s : State) (p : PortIn) (ps : List PortIn) (j : Nat), s.config.wf = true → s.Accepts p → s.inputs = p :: ps →
    j < 528 / s.config.roundsPerCycle → j ≤ ps.length → (∀ q ∈ ps.take j, q.rst = false) →
    ∃ t : State, runEdges (1 + j) s = .next t ∧ t.phase = .busy ∧ t.cnt.toNat = j * s.config.roundsPerCycle ∧
      (t.blk, t.key) =
        rounds (if p.mode = 0 then .encrypt else .decrypt) (j * s.config.roundsPerCycle) (p.blockIn, p.keyIn)

/-- R80: a command accepted at an edge, with no reset at the next `528 / U` edges, ends in `DONE` with
`block_out = Encrypt(b, k)` or `Decrypt(b, k)`; before each of those edges the block is `BUSY`, so no other command is
accepted. For every U that divides 528. -/
def Obligations.AcceptedCommandEndsWithTheCipherResult : Prop :=
  ∀ (s : State) (p : PortIn) (ps : List PortIn), s.config.wf = true → s.Accepts p → s.inputs = p :: ps →
    528 / s.config.roundsPerCycle ≤ ps.length → (∀ q ∈ ps.take (528 / s.config.roundsPerCycle), q.rst = false) →
    (∀ j < 528 / s.config.roundsPerCycle, ∃ u : State, runEdges (1 + j) s = .next u ∧ u.phase = .busy) ∧
    ∃ t : State, runEdges (1 + 528 / s.config.roundsPerCycle) s = .next t ∧ t.phase = .done ∧
      t.blockOut = some (if p.mode = 0 then encryptBlock p.blockIn p.keyIn else decryptBlock p.blockIn p.keyIn)

/-- R78, R66: the result of an accepted command is a function of `(mode, b, k)` alone: it does not depend on the state
the command was accepted in, on what the host drives later, or on U. -/
def Obligations.ResultDependsOnlyOnTheCommand : Prop :=
  ∀ (s s' : State) (p : PortIn) (ps ps' : List PortIn),
    s.config.wf = true → s'.config.wf = true → s.Accepts p → s'.Accepts p →
    s.inputs = p :: ps → s'.inputs = p :: ps' →
    ps.length = 528 / s.config.roundsPerCycle → ps'.length = 528 / s'.config.roundsPerCycle →
    (∀ q ∈ ps ++ ps', q.rst = false) →
    ∃ t t' : State, runEdges (1 + 528 / s.config.roundsPerCycle) s = .next t ∧
      runEdges (1 + 528 / s'.config.roundsPerCycle) s' = .next t' ∧
      t.done = true ∧ t'.done = true ∧ t.outputs = t'.outputs

/-- R74: at the end of an operation, and for as long as neither a reset nor a request comes, `KEY` is the command's key
rotated by 16, `CNT = 528` and `MODE` is the command's mode; and the rule's example. -/
def Obligations.KeyRegisterAtCompletion : Prop :=
  (∀ (n : Nat) (s : State) (p : PortIn) (ps : List PortIn), s.config.wf = true → s.Accepts p → s.inputs = p :: ps →
    528 / s.config.roundsPerCycle + n ≤ ps.length →
    (∀ q ∈ ps.take (528 / s.config.roundsPerCycle), q.rst = false) →
    (∀ q ∈ (ps.drop (528 / s.config.roundsPerCycle)).take n, q.rst = false ∧ q.start = false) →
    ∃ t : State, runEdges (1 + 528 / s.config.roundsPerCycle + n) s = .next t ∧ t.phase = .done ∧ t.cnt = 528 ∧
      (p.mode = 0 → t.mode = .encrypt ∧ t.key = p.keyIn.rotateRight 16) ∧
      (p.mode = 1 → t.mode = .decrypt ∧ t.key = p.keyIn.rotateLeft 16)) ∧
  (0xCAFED00D : Key).rotateRight 16 = 0xD00D00000000CAFE ∧
  (0xCAFED00D : Key).rotateLeft 16 = 0x0000CAFED00D0000

/-- R73, R105: no step tests a data value: two blocks with the same phase, count and parameter, under inputs with the
same `rst` and `start`, are in the same phase with the same count after every number of edges, whatever their blocks,
keys, modes and operands. -/
def Obligations.TimingDoesNotDependOnData : Prop :=
  ∀ (n : Nat) (s s' : State), n ≤ s.inputs.length → s.phase = s'.phase → s.cnt = s'.cnt → s.config = s'.config →
    s.inputs.map (fun p => (p.rst, p.start)) = s'.inputs.map (fun p => (p.rst, p.start)) →
    ∃ t t' : State, runEdges n s = .next t ∧ runEdges n s' = .next t' ∧
      t.phase = t'.phase ∧ t.cnt = t'.cnt ∧ t.busy = t'.busy ∧ t.done = t'.done

/-- R102: `start` is a level: held at 1 with no reset, the first operation runs to its end and shows its result for one
edge, and the edge after it accepts the inputs then driven and performs no round. -/
def Obligations.HeldStartLaunchesAgain : Prop :=
  ∀ (s : State) (p q : PortIn) (ps qs : List PortIn), s.config.wf = true → s.phase ≠ .busy →
    s.inputs = p :: ps ++ q :: qs → ps.length = 528 / s.config.roundsPerCycle →
    (∀ r ∈ p :: ps ++ [q], r.rst = false ∧ r.start = true) →
    ∃ t u : State, runEdges (1 + 528 / s.config.roundsPerCycle) s = .next t ∧ t.done = true ∧
      t.blockOut = some (if p.mode = 0 then encryptBlock p.blockIn p.keyIn else decryptBlock p.blockIn p.keyIn) ∧
      step t = .next u ∧ u.busy = true ∧ u.done = false ∧ u.cnt = 0 ∧ u.blk = q.blockIn ∧ u.key = q.keyIn ∧
      u.mode = (if q.mode = 0 then Mode.encrypt else Mode.decrypt)

/-! ### The host -/

/-- The model's choice (log entry 4, DESIGN CHOICE): when the host's list has run out, an edge is that of a `NOP`. -/
def Obligations.ExhaustedInputsAreQuiet : Prop :=
  ∀ s : State, s.inputs = [] →
    (s.phase ≠ .busy → step s = .next s) ∧ (s.phase = .busy → step s = .next s.roundStep)

/-- R55: a host program that runs to its end is the finite sequence of input vectors it drove: feeding the block that
sequence, one vector an edge, gives the state the program ends in. -/
def Obligations.HostProgramIsItsInputVectors : Prop :=
  ∀ (prog : List Stmt) (h h' : HostRun), h.program prog = .ok h' →
    ∃ vs : List PortIn, h'.driven = vs.reverse ++ h.driven ∧
      runEdges vs.length { h.machine with inputs := vs ++ h.machine.inputs } = .next h'.machine

/-- R54, R55, R105: from a reachable `BUSY` state a `WAIT` ends, in `DONE`, after exactly the `(528 - CNT) / U` edges
that are left; in `DONE` it takes none; in `IDLE` it never ends (log entry 8). -/
def Obligations.WaitTakesTheEdgesLeft : Prop :=
  ∀ h : HostRun, h.machine.Inv →
    (h.machine.phase = .busy →
      ∃ h', h.wait = .ok h' ∧ h'.machine.phase = .done ∧ h'.names = h.names ∧
        h'.driven.length = h.driven.length + (528 - h.machine.cnt.toNat) / h.machine.config.roundsPerCycle) ∧
    (h.machine.phase = .done → h.wait = .ok h) ∧
    (h.machine.phase = .idle → h.wait = .error .waitNeverEnds)

/-- R54: `RUNENC b, k -> r` in `IDLE` or `DONE`, with literals that fit, binds `Encrypt(b, k)` to `r`, and `RUNDEC`
binds `Decrypt(b, k)`. -/
def Obligations.RunStatementsBindTheResult : Prop :=
  ∀ (h : HostRun) (b : Block) (k : Key) (r : String), h.machine.config.wf = true → h.machine.phase ≠ .busy →
    (∃ h', h.exec (.runEnc (.lit b.toNat) (.lit k.toNat) r) = .ok h' ∧
      h'.names = (r, encryptBlock b k) :: h.names ∧ h'.machine.phase = .done) ∧
    (∃ h', h.exec (.runDec (.lit b.toNat) (.lit k.toNat) r) = .ok h' ∧
      h'.names = (r, decryptBlock b k) :: h.names ∧ h'.machine.phase = .done)
end

