-- ==== Sys2Proof/Laws/Rounds.lean ====
section
/-! SUPPORT. The small lemmas of the datapath: how rounds compose, what one round does to the key, and the bits of the
direction. -/

namespace Sys2Proof.Machine

@[simp] theorem rounds_zero (m : Mode) (x : Block × Key) : rounds m 0 x = x := rfl

/-- Not a simp lemma: it would unroll 528 rounds one by one. -/
theorem rounds_succ (m : Mode) (n : Nat) (x : Block × Key) :
    rounds m (n + 1) x = roundOf m (rounds m n x) := rfl

/-- Rounds compose: `a` rounds and then `b` rounds are `a + b` rounds. -/
theorem rounds_add (m : Mode) (a b : Nat) (x : Block × Key) :
    rounds m (a + b) x = rounds m b (rounds m a x) := by
  induction b with
  | zero => rfl
  | succ b ih => rw [← Nat.add_assoc, rounds_succ, ih, rounds_succ]

/-- Bit `i` of a key rotated right by `r` is bit `i + r` of the key, modulo 64. -/
theorem rotateRight_bit (k : Key) (r i : Nat) (hi : i < 64) :
    (k.rotateRight r).getLsbD i = k.getLsbD ((i + r) % 64) := by
  rw [BitVec.getLsbD_rotateRight, Bool.cond_eq_ite]
  simp only [decide_eq_true_eq]
  split
  · congr 1
    omega
  · rw [decide_eq_true hi, Bool.true_and]
    congr 1
    omega

/-- Bit `i` of a key rotated left by `r` is bit `i - r` of the key, modulo 64. -/
theorem rotateLeft_bit (k : Key) (r i : Nat) (hi : i < 64) :
    (k.rotateLeft r).getLsbD i = k.getLsbD ((i + 63 * r) % 64) := by
  rw [BitVec.getLsbD_rotateLeft, Bool.cond_eq_ite]
  simp only [decide_eq_true_eq]
  split
  · congr 1
    omega
  · rw [decide_eq_true hi, Bool.true_and]
    congr 1
    omega

theorem encRound_key (x : Block × Key) : (encRound x).2 = x.2.rotateRight 1 := rfl

theorem decRound_key (x : Block × Key) : (decRound x).2 = x.2.rotateLeft 1 := rfl

/-- Bit `i` of the block after an encrypt round is bit `i + 1` of the block before it, and bit 31 is the feedback. -/
theorem encRound_blk_bit (x : Block × Key) (i : Nat) (h : i < 32) :
    (encRound x).1.getLsbD i = if i = 31 then encFeedback x.1 x.2 else x.1.getLsbD (i + 1) := by
  unfold encRound
  rw [BitVec.getLsbD_cons]
  split
  · rfl
  · rw [BitVec.getLsbD_extractLsb']
    have : i < 31 := by omega
    simp [this, Nat.add_comm]

/-- Bit 0 of the block after a decrypt round is the feedback, and bit `i + 1` is bit `i` of the block before it. -/
theorem decRound_blk_bit (x : Block × Key) (i : Nat) (h : i < 32) :
    (decRound x).1.getLsbD i = if i = 0 then decFeedback x.1 x.2 else x.1.getLsbD (i - 1) := by
  unfold decRound
  rw [BitVec.getLsbD_concat]
  split
  · rfl
  · rw [BitVec.getLsbD_extractLsb']
    have : i - 1 < 31 := by omega
    simp [this]

end Sys2Proof.Machine
end

