-- ==== Sys2Proof/Laws/State.lean ====
section
/-! SUPPORT. What each update of State leaves in each field, so that no later proof unfolds a record update. -/

namespace Sys2Proof.Machine

/-! ### An accepted command -/

@[simp] theorem State.accept_blk (s : State) (m : Mode) (b : Block) (k : Key) : (s.accept m b k).blk = b := rfl
@[simp] theorem State.accept_key (s : State) (m : Mode) (b : Block) (k : Key) : (s.accept m b k).key = k := rfl
@[simp] theorem State.accept_mode (s : State) (m : Mode) (b : Block) (k : Key) : (s.accept m b k).mode = m := rfl
@[simp] theorem State.accept_cnt (s : State) (m : Mode) (b : Block) (k : Key) : (s.accept m b k).cnt = 0 := rfl
@[simp] theorem State.accept_phase (s : State) (m : Mode) (b : Block) (k : Key) : (s.accept m b k).phase = .busy := rfl
@[simp] theorem State.accept_config (s : State) (m : Mode) (b : Block) (k : Key) : (s.accept m b k).config = s.config := rfl
@[simp] theorem State.accept_inputs (s : State) (m : Mode) (b : Block) (k : Key) : (s.accept m b k).inputs = s.inputs := rfl
@[simp] theorem State.accept_draws (s : State) (m : Mode) (b : Block) (k : Key) : (s.accept m b k).draws = s.draws := rfl

/-! ### A round step -/

@[simp] theorem State.roundStep_blk (s : State) : s.roundStep.blk = (rounds s.mode s.config.roundsPerCycle (s.blk, s.key)).1 := rfl
@[simp] theorem State.roundStep_key (s : State) : s.roundStep.key = (rounds s.mode s.config.roundsPerCycle (s.blk, s.key)).2 := rfl
@[simp] theorem State.roundStep_mode (s : State) : s.roundStep.mode = s.mode := rfl
@[simp] theorem State.roundStep_cnt (s : State) : s.roundStep.cnt = s.nextCount := rfl
@[simp] theorem State.roundStep_phase (s : State) : s.roundStep.phase = if s.nextCount = BitVec.ofNat 10 Config.rounds then .done else s.phase := rfl
@[simp] theorem State.roundStep_config (s : State) : s.roundStep.config = s.config := rfl
@[simp] theorem State.roundStep_inputs (s : State) : s.roundStep.inputs = s.inputs := rfl
@[simp] theorem State.roundStep_draws (s : State) : s.roundStep.draws = s.draws := rfl

/-! ### A reset edge -/

@[simp] theorem State.resetEdge_blk (s : State) : s.resetEdge.blk = Config.resetBlk s.draws := rfl
@[simp] theorem State.resetEdge_key (s : State) : s.resetEdge.key = Config.resetKey s.draws := rfl
@[simp] theorem State.resetEdge_mode (s : State) : s.resetEdge.mode = Config.resetMode s.draws := rfl
@[simp] theorem State.resetEdge_cnt (s : State) : s.resetEdge.cnt = 0 := rfl
@[simp] theorem State.resetEdge_phase (s : State) : s.resetEdge.phase = .idle := rfl
@[simp] theorem State.resetEdge_config (s : State) : s.resetEdge.config = s.config := rfl
@[simp] theorem State.resetEdge_inputs (s : State) : s.resetEdge.inputs = s.inputs := rfl
@[simp] theorem State.resetEdge_draws (s : State) : s.resetEdge.draws = s.draws + 1 := rfl

/-! ### Passing over the inputs of an edge -/

@[simp] theorem State.advanceInputs_blk (s : State) : s.advanceInputs.blk = s.blk := rfl
@[simp] theorem State.advanceInputs_key (s : State) : s.advanceInputs.key = s.key := rfl
@[simp] theorem State.advanceInputs_mode (s : State) : s.advanceInputs.mode = s.mode := rfl
@[simp] theorem State.advanceInputs_cnt (s : State) : s.advanceInputs.cnt = s.cnt := rfl
@[simp] theorem State.advanceInputs_phase (s : State) : s.advanceInputs.phase = s.phase := rfl
@[simp] theorem State.advanceInputs_config (s : State) : s.advanceInputs.config = s.config := rfl
@[simp] theorem State.advanceInputs_inputs (s : State) : s.advanceInputs.inputs = s.inputs.tail := rfl
@[simp] theorem State.advanceInputs_draws (s : State) : s.advanceInputs.draws = s.draws := rfl

/-! ### Driving an edge before the others -/

@[simp] theorem State.present_blk (s : State) (p : PortIn) : (s.present p).blk = s.blk := rfl
@[simp] theorem State.present_key (s : State) (p : PortIn) : (s.present p).key = s.key := rfl
@[simp] theorem State.present_mode (s : State) (p : PortIn) : (s.present p).mode = s.mode := rfl
@[simp] theorem State.present_cnt (s : State) (p : PortIn) : (s.present p).cnt = s.cnt := rfl
@[simp] theorem State.present_phase (s : State) (p : PortIn) : (s.present p).phase = s.phase := rfl
@[simp] theorem State.present_config (s : State) (p : PortIn) : (s.present p).config = s.config := rfl
@[simp] theorem State.present_inputs (s : State) (p : PortIn) : (s.present p).inputs = p :: s.inputs := rfl
@[simp] theorem State.present_draws (s : State) (p : PortIn) : (s.present p).draws = s.draws := rfl

/-! ### Driving the next edge in place of what was there -/

@[simp] theorem State.replaceNext_blk (s : State) (p : PortIn) : (s.replaceNext p).blk = s.blk := rfl
@[simp] theorem State.replaceNext_key (s : State) (p : PortIn) : (s.replaceNext p).key = s.key := rfl
@[simp] theorem State.replaceNext_mode (s : State) (p : PortIn) : (s.replaceNext p).mode = s.mode := rfl
@[simp] theorem State.replaceNext_cnt (s : State) (p : PortIn) : (s.replaceNext p).cnt = s.cnt := rfl
@[simp] theorem State.replaceNext_phase (s : State) (p : PortIn) : (s.replaceNext p).phase = s.phase := rfl
@[simp] theorem State.replaceNext_config (s : State) (p : PortIn) : (s.replaceNext p).config = s.config := rfl
@[simp] theorem State.replaceNext_inputs (s : State) (p : PortIn) : (s.replaceNext p).inputs = p :: s.inputs.tail := rfl
@[simp] theorem State.replaceNext_draws (s : State) (p : PortIn) : (s.replaceNext p).draws = s.draws := rfl

/-! ### The edge by phase -/

theorem State.quietEdge_busy (s : State) (h : s.phase = .busy) : s.quietEdge = s.roundStep := by
  simp [State.quietEdge, h]

theorem State.quietEdge_not_busy (s : State) (h : s.phase ≠ .busy) : s.quietEdge = s := by
  unfold State.quietEdge
  split <;> simp_all

theorem State.requestEdge_busy (s : State) (m : Mode) (b : Block) (k : Key) (h : s.phase = .busy) :
    s.requestEdge m b k = s.roundStep := by
  simp [State.requestEdge, h]

theorem State.requestEdge_not_busy (s : State) (m : Mode) (b : Block) (k : Key) (h : s.phase ≠ .busy) :
    s.requestEdge m b k = s.accept m b k := by
  unfold State.requestEdge
  split <;> simp_all

/-! ### Sampling and outputs -/

@[simp] theorem State.sampled_present (s : State) (p : PortIn) : (s.present p).sampled = p := rfl

@[simp] theorem State.sampled_replaceNext (s : State) (p : PortIn) : (s.replaceNext p).sampled = p := rfl

@[simp] theorem State.advanceInputs_present (s : State) (p : PortIn) : (s.present p).advanceInputs = s := rfl

theorem State.sampled_of_inputs (s : State) (p : PortIn) (ps : List PortIn) (h : s.inputs = p :: ps) :
    s.sampled = p := by
  simp [State.sampled, h]

theorem State.advanceInputs_of_inputs (s : State) (p : PortIn) (ps : List PortIn) (h : s.inputs = p :: ps) :
    s.advanceInputs = { s with inputs := ps } := by
  simp [State.advanceInputs, h]

theorem State.busy_iff (s : State) : s.busy = true ↔ s.phase = .busy := by
  simp [State.busy]

theorem State.done_iff (s : State) : s.done = true ↔ s.phase = .done := by
  simp [State.done]

theorem State.blockOut_of_done (s : State) (h : s.phase = .done) : s.blockOut = some s.blk := by
  simp [State.blockOut, h]

theorem State.blockOut_of_not_done (s : State) (h : s.phase ≠ .done) : s.blockOut = none := by
  unfold State.blockOut
  split <;> simp_all

end Sys2Proof.Machine
end

