-- ==== Sys2Proof/Laws/Step.lean ====
section
/-! SUPPORT. What one edge can do, said once: the step as a function of the inputs sampled, and by cases. Later proofs
cite these and do not unfold the step. -/

namespace Sys2Proof

/-- Decoding packed fields gives the command of those fields. -/
theorem decode_packCmd (b : BitVec 1) (x : Block) (k : Key) :
    decode (packCmd b x k) = Instr.ofFields (Mode.ofBit b) x k := by
  have h0 : (packCmd b x k).extractLsb' 0 1 = b := by
    ext i hi
    simp only [packCmd, BitVec.getElem_extractLsb', BitVec.getLsbD_append, Nat.zero_add, hi,
      BitVec.getLsbD_eq_getElem, if_true]
  have h1 : (packCmd b x k).extractLsb' 1 32 = x := by
    ext i hi
    have a : ¬ (1 + i < 1) := by omega
    have c : 1 + i - 1 = i := by omega
    simp only [packCmd, BitVec.getElem_extractLsb', BitVec.getLsbD_append, a, c, hi, if_false, if_true,
      BitVec.getLsbD_eq_getElem]
  have h2 : (packCmd b x k).extractLsb' 33 64 = k := by
    ext i hi
    have a : ¬ (33 + i < 1) := by omega
    have c : ¬ (33 + i - 1 < 32) := by omega
    have d : 33 + i - 1 - 32 = i := by omega
    simp only [packCmd, BitVec.getElem_extractLsb', BitVec.getLsbD_append, a, c, d, hi, if_false,
      BitVec.getLsbD_eq_getElem]
  rw [decode, h0, h1, h2]

namespace Machine

/-- Running a command of given fields is requesting it. -/
theorem exec_ofFields (m : Mode) (b : Block) (k : Key) (s : State) :
    exec (Instr.ofFields m b k) s = .next (s.requestEdge m b k) := by
  cases m <;> rfl

/-- What an edge does with the inputs sampled at it, after they are past. -/
def edge (p : PortIn) (s : State) : State :=
  if p.rst then s.resetEdge
  else if p.start then s.requestEdge (Mode.ofBit p.mode) p.blockIn p.keyIn
  else s.quietEdge

/-- The step is the edge with the inputs sampled. -/
theorem step_eq (s : State) : step s = .next (edge s.sampled s.advanceInputs) := by
  unfold step edge
  split
  · rfl
  · split
    · rw [PortIn.cmd, decode_packCmd, exec_ofFields]
    · rfl

theorem step_cons (s : State) (p : PortIn) (ps : List PortIn) (h : s.inputs = p :: ps) :
    step s = .next (edge p { s with inputs := ps }) := by
  rw [step_eq, State.sampled_of_inputs s p ps h, State.advanceInputs_of_inputs s p ps h]

/-- Everything an edge can do (41_cipher_operations.md R71): reset, accept, perform a round step, or nothing. -/
theorem edge_cases (p : PortIn) (s : State) :
    (p.rst = true ∧ edge p s = s.resetEdge) ∨
    (p.rst = false ∧ p.start = true ∧ s.phase ≠ .busy ∧
      edge p s = s.accept (Mode.ofBit p.mode) p.blockIn p.keyIn) ∨
    (p.rst = false ∧ s.phase = .busy ∧ edge p s = s.roundStep) ∨
    (p.rst = false ∧ p.start = false ∧ s.phase ≠ .busy ∧ edge p s = s) := by
  unfold edge
  by_cases hb : s.phase = .busy
  · cases p.rst <;> cases p.start <;> simp [hb, State.requestEdge_busy, State.quietEdge_busy]
  · cases p.rst <;> cases p.start <;> simp [hb, State.requestEdge_not_busy, State.quietEdge_not_busy]

/-- The parameter is well-formed exactly when it divides 528. -/
theorem config_wf_iff (c : Config) : c.wf = true ↔ c.roundsPerCycle ∣ 528 := decide_eq_true_iff

/-- The counter's comparison, as numbers. -/
theorem nextCount_eq_rounds_iff (s : State) :
    s.nextCount = BitVec.ofNat 10 Config.rounds ↔ s.nextCount.toNat = 528 :=
  ⟨fun h => by rw [h]; rfl, fun h => BitVec.eq_of_toNat_eq h⟩

@[simp] theorem runEdges_zero (s : State) : runEdges 0 s = .next s := rfl

theorem runEdges_succ (n : Nat) (s : State) : runEdges (n + 1) s = runEdges n (edge s.sampled s.advanceInputs) := by
  rw [runEdges, step_eq]

theorem runEdges_cons (n : Nat) (s : State) (p : PortIn) (ps : List PortIn) (h : s.inputs = p :: ps) :
    runEdges (n + 1) s = runEdges n (edge p { s with inputs := ps }) := by
  rw [runEdges_succ, State.sampled_of_inputs s p ps h, State.advanceInputs_of_inputs s p ps h]

/-- A run of `a` edges and then of `b` edges is a run of `a + b`. -/
theorem runEdges_add (a b : Nat) (s t : State) (h : runEdges a s = .next t) :
    runEdges (a + b) s = runEdges b t := by
  induction a generalizing s with
  | zero =>
    cases h
    rw [Nat.zero_add]
  | succ a ih =>
    rw [runEdges_succ] at h
    rw [Nat.add_right_comm, runEdges_succ]
    exact ih _ h

/-- One step of a run of the host's interface, for any machine. -/
theorem hostRun_succ (M : Host.Core) (n : Nat) (s t : M.State) (h : M.step s = .next t) :
    M.run (n + 1) s = M.run n t := by
  simp only [Host.Core.run, h]

/-- The claims' runs are the host interface's runs. -/
theorem runEdges_eq_core_run (n : Nat) (s : State) : runEdges n s = Host.Core.run Sys2Proof.core n s := by
  induction n generalizing s with
  | zero => rfl
  | succ n ih =>
    rw [runEdges_succ]
    exact (ih _).trans (hostRun_succ Sys2Proof.core n s _ (step_eq s)).symm

/-- An edge changes neither the parameter nor the inputs still to come. -/
@[simp] theorem edge_config (p : PortIn) (s : State) : (edge p s).config = s.config := by
  rcases edge_cases p s with ⟨_, h⟩ | ⟨_, _, _, h⟩ | ⟨_, _, h⟩ | ⟨_, _, _, h⟩ <;> rw [h] <;> rfl

@[simp] theorem edge_inputs (p : PortIn) (s : State) : (edge p s).inputs = s.inputs := by
  rcases edge_cases p s with ⟨_, h⟩ | ⟨_, _, _, h⟩ | ⟨_, _, h⟩ | ⟨_, _, _, h⟩ <;> rw [h] <;> rfl

end Machine

end Sys2Proof
end

