-- ==== Sys2Proof/Laws/HostProgram.lean ====
section
/-! SUPPORT. What driving one edge does to a host run, and the values of literals that fit. -/

namespace Sys2Proof.Machine

/-- Driving an edge always answers: the block takes the edge, and the vector is recorded. -/
theorem HostRun.drive_eq (h : HostRun) (p : PortIn) :
    h.drive p = .ok { h with machine := edge p h.machine, driven := p :: h.driven } := by
  have hs : step (h.machine.present p) = .next (edge p h.machine) := by
    rw [step_eq, State.sampled_present, State.advanceInputs_present]
  rw [HostRun.drive, hs]

/-- A literal written from a value of the place's width has that value. -/
theorem Operand.value_lit (width : Nat) (names : List (String × Block)) (x : BitVec width) :
    Operand.value width names (.lit x.toNat) = .ok x := by
  have hx : literalFits width x.toNat = true := decide_eq_true x.isLt
  simp [Operand.value, hx]

end Sys2Proof.Machine
end

