-- ==== Sys2Proof/Laws/PerInstr.lean ====
section
/-! SUPPORT. Statements made for every command by name. -/

namespace Sys2Proof.Laws.TableRow

/-- The command's row of spec/opcode_table.json: its packed word agrees with the row's match under the row's mask
(30_encoding.md R53). -/
def Statement (i : Instr) : Prop :=
  encode i &&& 0x1 = (match i with | .encrypt _ _ => 0x0 | .decrypt _ _ => 0x1)

/-- A packed word under the mask `0x1` is its mode bit. -/
theorem packCmd_and_one (m : BitVec 1) (b : Block) (k : Key) : packCmd m b k &&& 0x1 = m.setWidth 97 := by
  have h : (0x1 : CmdWord) = (1 : BitVec 1).setWidth 97 := by decide
  rw [h]
  apply BitVec.eq_of_getLsbD_eq
  intro i hi
  rw [packCmd, BitVec.getLsbD_and, BitVec.getLsbD_append, BitVec.getLsbD_setWidth, BitVec.getLsbD_setWidth]
  by_cases h0 : i < 1
  · have : i = 0 := by omega
    subst this
    simp
  · have h1 : i ≠ 0 := by omega
    simp [h0, h1, BitVec.getLsbD_of_ge m i (by omega)]

theorem encrypt (b : Block) (k : Key) : Statement (.encrypt b k) := packCmd_and_one 0 b k

theorem decrypt (b : Block) (k : Key) : Statement (.decrypt b k) := packCmd_and_one 1 b k

end Sys2Proof.Laws.TableRow
end

