-- ==== Sys2Proof/Tests/Slice0.lean ====
section
/-! SUPPORT. Tests with expected results from spec/95_test_vectors.md and the encoding rules, and, for every statement
with hypotheses, a concrete state and operands that meet them together (the theorems `witness_…`). -/

namespace Sys2Proof.Tests

open Sys2Proof Sys2Proof.Machine

/-- The next state of an outcome. -/
def nextState : Host.Outcome State Fault Refusal → Option State
  | .next s => some s
  | .fault _ => none
  | .refused _ => none

/-- A state of the reference implementation (U = 1) or another, with the inputs given. -/
def mk (u : Nat) (ph : Phase) (c : Count) (m : Mode) (b : Block) (k : Key) (ins : List PortIn) : State :=
  { blk := b, key := k, mode := m, cnt := c, phase := ph, config := { roundsPerCycle := u }, inputs := ins, draws := 0 }

/-- K1 and K2 of 95_test_vectors.md. -/
def k1 : Key := 0x00000000CAFED00D
def k2 : Key := 0x5CEC6701B79FD949

/-- A reset requested together with a command (V-C5). -/
def resetAndStart : PortIn := { rst := true, start := true, mode := 1, blockIn := 0xE44F4CDF, keyIn := k2 }

def encReq : PortIn := PortIn.request .encrypt 0x12345678 k1
def decReq : PortIn := PortIn.request .decrypt 0xE44F4CDF k2

/-! ### Well-formedness: an ill-formed term for each check -/

theorem test_word_of_98_bits_is_no_command : isCmdWord (2 ^ 97) = false ∧ isCmdWord (2 ^ 97 - 1) = true := by
  decide +kernel

theorem test_rounds_per_cycle_must_divide :
    Config.wf { roundsPerCycle := 5 } = false ∧ Config.wf { roundsPerCycle := 0 } = false ∧
    Config.wf { roundsPerCycle := 1056 } = false ∧ Config.wf { roundsPerCycle := 528 } = true ∧
    Config.wf Config.reference = true := by
  decide

theorem test_literal_too_wide : literalFits 32 0x100000000 = false ∧ literalFits 64 0x100000000 = true := by
  decide

/-! ### Decoding: words written out from 30_encoding.md R48 and R53 and from V-E -/

/-- `ENCRYPT 0x12345678, 0xCAFED00D`: key bits, block bits, mode bit 0, as R48 packs them. -/
theorem test_decode_encrypt_bits :
    decode ((0x00000000CAFED00D#64 ++ 0x12345678#32) ++ 0b0#1) = .encrypt 0x12345678 0xCAFED00D ∧
    decode 0x00000000195FDA01A2468ACF0 = .encrypt 0x12345678 0xCAFED00D := by
  decide

/-- `DECRYPT 0xD0FB287C, 0xCAFED00D`: key bits, block bits, mode bit 1. -/
theorem test_decode_decrypt_bits :
    decode ((0x00000000CAFED00D#64 ++ 0xD0FB287C#32) ++ 0b1#1) = .decrypt 0xD0FB287C 0xCAFED00D ∧
    decode 0x00000000195FDA01BA1F650F9 = .decrypt 0xD0FB287C 0xCAFED00D := by
  decide

/-- One bit set in each field: the lowest and the highest of the block and of the key (R48). -/
theorem test_decode_field_edges :
    decode (1#97 <<< 1) = .encrypt 0x00000001 0 ∧ decode (1#97 <<< 32) = .encrypt 0x80000000 0 ∧
    decode (1#97 <<< 33) = .encrypt 0 0x0000000000000001 ∧ decode (1#97 <<< 96) = .encrypt 0 0x8000000000000000 := by
  decide

theorem test_encode_listed_words :
    encode (.decrypt 0xE44F4CDF k2) = 0x0B9D8CE036F3FB293C89E99BF ∧
    encode (.encrypt 0xA6AC0EA2 k2) = 0x0B9D8CE036F3FB2934D581D44 ∧
    encode (.decrypt 0xA6AC0EA2 k2) = 0x0B9D8CE036F3FB2934D581D45 := by
  decide

theorem test_decode_table_word :
    decodeTableWord 8 0 = some (.encrypt 0 0) ∧ decodeTableWord 8 1 = some (.decrypt 0 0) ∧
    decodeTableWord 104 0x0B9D8CE036F3FB2934D581D45 = some (.decrypt 0xA6AC0EA2 k2) ∧
    decodeTableWord 104 (2 ^ 97) = none := by
  decide +kernel

/-- A placed command is the first thing run after reset. -/
theorem test_placed_word_runs_after_reset :
    nextState (step (State.reset.withFetchWord 97 0x00000000195FDA01BA1F650F9)) =
      nextState (exec (.decrypt 0xD0FB287C 0xCAFED00D) State.reset) ∧
    (nextState (step (State.reset.withFetchWord 8 1))).map State.phase = some .busy := by
  decide +kernel

/-! ### The datapath (V-N, the index probes, V-R) -/

theorem test_nlf_entries :
    [0, 1, 4, 5, 6, 15, 16, 20, 29, 30, 31].map nlf =
      [false, true, false, true, false, false, false, true, true, false, false] := by
  decide

theorem test_index_probes :
    [0x00000001, 0x00000002, 0x00000100, 0x00000200, 0x00080000, 0x00100000, 0x02000000, 0x04000000, 0x40000000,
      0x80000000].map encIndex = [0, 1, 0, 2, 0, 4, 0, 8, 0, 16] ∧
    [0x00000001, 0x00000002, 0x00000100, 0x00000200, 0x00080000, 0x00100000, 0x02000000, 0x04000000, 0x40000000,
      0x80000000].map decIndex = [1, 0, 2, 0, 4, 0, 8, 0, 16, 0] ∧
    [0x00040000, 0x00800000, 0x08000000].map encIndex = [0, 0, 0] ∧
    [0x00000080, 0x00020000, 0x00400000, 0x04000000].map decIndex = [0, 0, 0, 0] := by
  decide

theorem test_encrypt_rounds :
    encRound (0x00000001, 0) = (0x80000000, 0) ∧ encRound (0x00010000, 0) = (0x80008000, 0) ∧
    encRound (0, 1) = (0x80000000, 0x8000000000000000) ∧ encRound (0x00000002, 0) = (0x80000001, 0) ∧
    encRound (0x80000000, 0) = (0x40000000, 0) ∧ encRound (0, 0x8000) = (0, 0x4000) ∧
    encRound (0xD0FB287C, k1) = (0xE87D943E, 0x80000000657F6806) := by
  decide

theorem test_decrypt_rounds :
    decRound (0x00000001, 0) = (0x00000003, 0) ∧ decRound (0x00010000, 0) = (0x00020000, 0) ∧
    decRound (0, 1) = (0, 2) ∧ decRound (0x80000000, 0) = (0x00000001, 0) ∧
    decRound (0, 0x8000) = (0x00000001, 0x10000) ∧ decRound (0x00008000, 0) = (0x00010001, 0) ∧
    decRound (0x12345678, k1) = (0x2468ACF1, 0x0000000195FDA01A) := by
  decide

/-! ### The two commands: the source's vectors S1 and S2, in pieces of at most 64 rounds -/

/-- The states after 64, 256, 512 and 528 rounds are those of V-T; those between are steps of the computation. -/
theorem test_encrypt_S1 :
    rounds .encrypt 528 (0x12345678, k1) = (0xD0FB287C, 0xD00D00000000CAFE) ∧
    encryptBlock 0x12345678 k1 = 0xD0FB287C := by
  have a : rounds .encrypt 64 (0x12345678, k1) = (0xAE2521F7, k1) := by decide +kernel
  have b : rounds .encrypt 64 (0xAE2521F7, k1) = (0xABACEEEA, k1) := by decide +kernel
  have c : rounds .encrypt 64 (0xABACEEEA, k1) = (0x41166F58, k1) := by decide +kernel
  have d : rounds .encrypt 64 (0x41166F58, k1) = (0xDA7141B4, k1) := by decide +kernel
  have e : rounds .encrypt 64 (0xDA7141B4, k1) = (0xC3DBB60D, k1) := by decide +kernel
  have f : rounds .encrypt 64 (0xC3DBB60D, k1) = (0x73BC677B, k1) := by decide +kernel
  have g : rounds .encrypt 64 (0x73BC677B, k1) = (0x9CC074C1, k1) := by decide +kernel
  have h : rounds .encrypt 64 (0x9CC074C1, k1) = (0x287CE43B, k1) := by decide +kernel
  have i : rounds .encrypt 16 (0x287CE43B, k1) = (0xD0FB287C, 0xD00D00000000CAFE) := by decide +kernel
  have all : rounds .encrypt (64 + 64 + 64 + 64 + 64 + 64 + 64 + 64 + 16) (0x12345678, k1) =
      (0xD0FB287C, 0xD00D00000000CAFE) := by
    simp only [rounds_add, a, b, c, d, e, f, g, h, i]
  exact ⟨all, congrArg Prod.fst all⟩

theorem test_decrypt_S2 :
    rounds .decrypt 528 (0xD0FB287C, k1) = (0x12345678, 0x0000CAFED00D0000) ∧
    decryptBlock 0xD0FB287C k1 = 0x12345678 := by
  have a : rounds .decrypt 64 (0xD0FB287C, k1) = (0xA3BA9CC0, k1) := by decide +kernel
  have b : rounds .decrypt 64 (0xA3BA9CC0, k1) = (0x1D4673BC, k1) := by decide +kernel
  have c : rounds .decrypt 64 (0x1D4673BC, k1) = (0x1524C3DB, k1) := by decide +kernel
  have d : rounds .decrypt 64 (0x1524C3DB, k1) = (0xD6DFDA71, k1) := by decide +kernel
  have e : rounds .decrypt 64 (0xD6DFDA71, k1) = (0x40754116, k1) := by decide +kernel
  have f : rounds .decrypt 64 (0x40754116, k1) = (0x2104ABAC, k1) := by decide +kernel
  have g : rounds .decrypt 64 (0x2104ABAC, k1) = (0x95E4AE25, k1) := by decide +kernel
  have h : rounds .decrypt 64 (0x95E4AE25, k1) = (0x5F4F1234, k1) := by decide +kernel
  have i : rounds .decrypt 16 (0x5F4F1234, k1) = (0x12345678, 0x0000CAFED00D0000) := by decide +kernel
  have all : rounds .decrypt (64 + 64 + 64 + 64 + 64 + 64 + 64 + 64 + 16) (0xD0FB287C, k1) =
      (0x12345678, 0x0000CAFED00D0000) := by
    simp only [rounds_add, a, b, c, d, e, f, g, h, i]
  exact ⟨all, congrArg Prod.fst all⟩

/-! ### One edge (V-C); each branch of the step is a witness of `StepIsTheRegisterTransfer` -/

/-- V-C1: accepted in `IDLE`. -/
theorem test_edge_accepts_in_idle :
    nextState (step (mk 1 .idle 0 .decrypt 7 9 [encReq])) = some (mk 1 .busy 0 .encrypt 0x12345678 k1 []) := by
  decide +kernel

/-- V-C2: a `start` in `BUSY` is dropped, and round 10 is performed. -/
theorem test_edge_drops_in_busy :
    nextState (step (mk 1 .busy 10 .encrypt 0xF7BDD078 0x52573B19C06DE7F6 [decReq])) =
      some (mk 1 .busy 11 .encrypt 0x7BDEE83C 0x292B9D8CE036F3FB []) := by
  decide +kernel

/-- V-C3: the last round. -/
theorem test_edge_completes :
    (nextState (step (mk 1 .busy 527 .encrypt 0xA1F650F9 0xA01A0000000195FD [PortIn.nop]))).map
        (fun t => (t, t.done, t.blockOut)) =
      some (mk 1 .done 528 .encrypt 0xD0FB287C 0xD00D00000000CAFE [], true, some 0xD0FB287C) := by
  decide +kernel

/-- V-C4 and V-C5: reset in `BUSY`, and reset together with a request in `DONE`. -/
theorem test_edge_resets :
    (nextState (step (mk 1 .busy 100 .encrypt 0xADE3795E 0x0CAFED00D0000000 [PortIn.reset]))).map
        (fun t => (t.phase, t.cnt, t.busy, t.done, t.blockOut)) = some (.idle, 0, false, false, none) ∧
    (nextState (step (mk 1 .done 528 .encrypt 0xD0FB287C k1 [resetAndStart]))).map
        (fun t => (t.phase, t.cnt)) = some (.idle, 0) := by
  decide +kernel

/-- V-C6 and V-C7: nothing to do. -/
theorem test_edge_holds :
    nextState (step (mk 1 .idle 0 .encrypt 5 6 [PortIn.nop])) = some (mk 1 .idle 0 .encrypt 5 6 []) ∧
    (nextState (step (mk 1 .done 528 .encrypt 0xD0FB287C k1 [PortIn.nop]))).map (fun t => (t.cnt, t.blockOut)) =
      some (528, some 0xD0FB287C) := by
  decide +kernel

/-- V-C8: accepted in `DONE`, over the previous result. -/
theorem test_edge_accepts_in_done :
    (nextState (step (mk 1 .done 528 .encrypt 0xD0FB287C 5 [PortIn.request .decrypt 0xD0FB287C k1]))).map
        (fun t => (t, t.done, t.blockOut)) = some (mk 1 .busy 0 .decrypt 0xD0FB287C k1 [], false, none) := by
  decide +kernel

/-- V-C9, and the same two rounds in one edge with U = 2 (V-T, n = 2). -/
theorem test_edge_rounds_per_cycle :
    nextState (step (mk 1 .busy 0 .encrypt 0x12345678 k1 [PortIn.nop])) =
      some (mk 1 .busy 1 .encrypt 0x891A2B3C 0x80000000657F6806 []) ∧
    nextState (step (mk 2 .busy 0 .encrypt 0x12345678 k1 [PortIn.nop])) =
      some (mk 2 .busy 2 .encrypt 0xC48D159E 0x4000000032BFB403 []) := by
  decide +kernel

/-! ### Host programs (30_encoding.md R54) -/

/-- The names and the driven edges of a host run that ends, or why it stops. -/
def outcome (p : List Stmt) (s : State) : Except HostStop (List (String × Block) × Nat × Phase) :=
  match (HostRun.start s).program p with
  | .ok h => .ok (h.names, h.driven.length, h.machine.phase)
  | .error e => .error e

/-- The start of P3: a reset abandons an operation, and a `READ` after it is refused. -/
theorem test_host_reset_abandons :
    outcome [.reset, .encrypt (.lit 0x12345678) (.lit 0xCAFED00D), .nop 2, .expect (.busy true), .reset,
      .expect (.busy false), .expect (.done false)] State.reset = .ok ([], 5, .idle) ∧
    outcome [.reset, .read "c"] State.reset = .error (.refused .blockOutHasNoValue) := by
  decide +kernel

/-- `READ` binds the result, an operand may be its name, and `EXPECT` may compare it. -/
theorem test_host_names :
    outcome [.wait, .read "c", .expect (.name "c" (.lit 0xD0FB287C)), .decrypt (.name "c") (.lit 0xCAFED00D)]
      (mk 1 .done 528 .encrypt 0xD0FB287C k1 []) = .ok ([("c", 0xD0FB287C)], 1, .busy) := by
  decide +kernel

/-- A host program with an operand that has no value, or an assertion that fails, stops by name. -/
theorem test_host_stops :
    outcome [.encrypt (.name "d") (.lit 0)] State.reset = .error (.unboundName "d") ∧
    outcome [.encrypt (.lit 0x100000000) (.lit 0)] State.reset = .error (.literalTooWide 32 0x100000000) ∧
    outcome [.expect (.done true)] State.reset = .error (.expectationFailed (.done true)) := by
  decide +kernel

/-! ### Witnesses: states and operands that meet a statement's hypotheses together -/

theorem witness_DecodeUndoesEncode : 97 ≤ 97 ∧ 97 ≤ 104 := by decide

theorem witness_EveryWordIsOneCommand :
    (2 : Nat) ^ 97 ≤ 2 ^ 97 ∧ (∃ w : CmdWord, w.getLsbD 0 = false) ∧ (∃ w : CmdWord, w.getLsbD 0 = true) :=
  ⟨le_refl _, ⟨0, by decide⟩, ⟨1, by decide⟩⟩

theorem witness_KeySchedule :
    ((2 : Key)[0] = (4 : Key)[0] ∧ (2 : Key) ≠ 4) ∧ ((1 : Key)[15] = (2 : Key)[15] ∧ (1 : Key) ≠ 2) := by decide

theorem witness_DecryptRoundsMirrorEncryptRounds : (0 ≤ 528 ∧ 528 ≤ 528) ∧ (0 < 528 ∧ 527 < 528) := by decide

/-- With U = 528 an operation is one round step, so its inputs are short. -/
theorem witness_EncryptThenDecryptIsIdentity :
    let s := mk 528 .idle 0 .encrypt 0 0
      (PortIn.request .encrypt 0 0 :: [PortIn.nop] ++ PortIn.request .decrypt 0 0 :: [PortIn.nop])
    s.config.wf = true ∧ s.phase ≠ .busy ∧ [PortIn.nop].length = 528 / s.config.roundsPerCycle ∧
      (∀ p ∈ [PortIn.nop] ++ [PortIn.nop], p.rst = false) := by decide

/-- The inner premise of `EncryptThenDecryptIsIdentity` together with its hypotheses: `c` is the `block_out` the first
operation ends with, here S1's (U = 528, so the operation is one round step). -/
theorem witness_EncryptThenDecryptIsIdentity_blockOut :
    let s := mk 528 .idle 0 .encrypt 0 0
      (PortIn.request .encrypt 0x12345678 k1 :: [PortIn.nop] ++ PortIn.request .decrypt 0xD0FB287C k1 :: [PortIn.nop])
    (s.config.wf = true ∧ s.phase ≠ .busy ∧ [PortIn.nop].length = 528 / s.config.roundsPerCycle ∧
      (∀ p ∈ [PortIn.nop] ++ [PortIn.nop], p.rst = false)) ∧
    ∃ t : State, runEdges (1 + 528 / s.config.roundsPerCycle) s = .next t ∧ t.blockOut = some 0xD0FB287C := by
  intro s
  refine ⟨by decide, ?_⟩
  let later := [PortIn.request .decrypt 0xD0FB287C k1, PortIn.nop]
  let busy := mk 528 .busy 0 .encrypt 0x12345678 k1 later
  have edges : 1 + 528 / s.config.roundsPerCycle = 1 + 1 := by decide
  have accepted : edge (PortIn.request .encrypt 0x12345678 k1) { s with inputs := PortIn.nop :: later } =
      mk 528 .busy 0 .encrypt 0x12345678 k1 (PortIn.nop :: later) := rfl
  have quiet : edge PortIn.nop busy = busy.roundStep := rfl
  refine ⟨busy.roundStep, ?_, ?_⟩
  · rw [edges, runEdges_cons 1 s _ (PortIn.nop :: later) rfl, accepted, runEdges_cons 0 _ PortIn.nop later rfl,
      runEdges_zero]
    exact congrArg Host.Outcome.next quiet
  · rw [State.blockOut_of_done _ (by rw [State.roundStep_phase]; decide), State.roundStep_blk]
    exact congrArg (fun x => some x.1) test_encrypt_S1.1

/-- The hypotheses on inputs, with each branch of `StepIsTheRegisterTransfer` taken. -/
theorem witness_StepIsTheRegisterTransfer :
    (mk 1 .done 528 .encrypt 0 0 [resetAndStart]).inputs = resetAndStart :: [] ∧ resetAndStart.rst = true ∧
    encReq.rst = false ∧ encReq.start = true ∧ (mk 1 .done 528 .encrypt 0 0 [encReq]).phase ≠ .busy ∧
    (mk 1 .busy 527 .encrypt 0 0 [encReq]).phase = .busy ∧
    PortIn.nop.start = false ∧ (mk 1 .idle 0 .encrypt 0 0 [PortIn.nop]).phase ≠ .busy := by decide

theorem witness_StepRunsTheDecodedCommand :
    (mk 1 .idle 0 .encrypt 0 0 [decReq]).inputs = decReq :: [] ∧ decReq.rst = false ∧ decReq.start = true := by decide

theorem witness_PlacedWordRunsAtTheNextEdge :
    decodeTableWord 97 0x00000000195FDA01A2468ACF0 = some (.encrypt 0x12345678 0xCAFED00D) := by decide +kernel

theorem witness_CommandsAreAcceptedUnlessBusy :
    State.reset.phase ≠ .busy ∧ (mk 1 .done 528 .decrypt 1 2 []).phase ≠ .busy := by decide

theorem witness_CommandsWhileBusyAreDropped :
    (mk 1 .busy 10 .encrypt 1 2 []).phase = .busy ∧ PortIn.nop.rst = false ∧ PortIn.nop.start = false := by decide

/-- One witness for each alternative of the hypothesis. -/
theorem witness_UnsampledInputsHaveNoEffect :
    (PortIn.reset.rst = resetAndStart.rst ∧ PortIn.reset.rst = true) ∧
    (PortIn.nop.rst = decReq.rst ∧ (mk 1 .busy 10 .encrypt 1 2 []).phase = .busy) ∧
    (PortIn.nop.start = false ∧ { PortIn.nop with blockIn := 1 }.start = false) := by decide

/-- An answered command, accepted and dropped. -/
theorem witness_CommandFrame :
    nextState (exec (.encrypt 3 4) State.reset) ≠ none ∧
    nextState (exec (.decrypt 3 4) (mk 1 .busy 527 .encrypt 1 2 [])) ≠ none := by decide +kernel

theorem witness_UnrollingDoesNotChangeRounds : 1 ∣ 528 ∧ 48 ∣ 528 ∧ 528 ∣ 528 := by decide

/-- At the first and at the last count of an operation. -/
theorem witness_CounterNeverWraps :
    let s := mk 1 .busy 0 .encrypt 1 2 [decReq]
    let t := mk 48 .busy 480 .decrypt 1 2 [PortIn.nop]
    (s.Inv ∧ s.phase = .busy ∧ s.inputs = decReq :: [] ∧ decReq.rst = false) ∧
    (t.Inv ∧ t.phase = .busy ∧ t.inputs = PortIn.nop :: [] ∧ PortIn.nop.rst = false) := by decide

theorem witness_CounterNeverWraps_step :
    (nextState (step (mk 1 .busy 527 .encrypt 1 2 [PortIn.nop]))).map (fun t => (t.phase, t.cnt)) =
      some (.done, 528) := by decide +kernel

/-- Every kind of transition occurs: held, accepted, carried on, completed, reset. Each is also a witness of
`RegistersAreWrittenOnlyAsListed`. -/
theorem witness_PhaseTransitions :
    [mk 1 .idle 0 .encrypt 1 2 [PortIn.nop], mk 1 .idle 0 .encrypt 1 2 [encReq], mk 1 .busy 526 .encrypt 1 2 [encReq],
      mk 1 .busy 527 .encrypt 1 2 [encReq], mk 1 .done 528 .encrypt 1 2 [PortIn.nop],
      mk 1 .done 528 .encrypt 1 2 [decReq], mk 1 .busy 5 .encrypt 1 2 [resetAndStart]].map
        (fun s => (nextState (step s)).map State.phase) =
      [some .idle, some .busy, some .busy, some .done, some .done, some .busy, some .idle] := by decide +kernel

theorem witness_RegistersAreWrittenOnlyAsListed :
    let s := mk 1 .idle 0 .encrypt 1 2 [decReq]
    (nextState (step s)).map (fun t => decide (t.blk ≠ s.blk ∧ t.key ≠ s.key ∧ t.mode ≠ s.mode)) = some true ∧
    s.Accepts decReq := by decide +kernel

theorem witness_BlockOutHasAValueOnlyInDone :
    (HostRun.start State.reset).machine.done = false ∧ (mk 1 .done 528 .encrypt 7 2 []).blockOut = some 7 := by decide

/-- In `BUSY` with different registers, and in `DONE` with the same block. -/
theorem witness_OutputsHideTheRest :
    ((mk 1 .busy 3 .encrypt 1 2 []).phase = (mk 1 .busy 4 .decrypt 5 6 []).phase) ∧
    ((mk 1 .done 528 .encrypt 1 2 []).phase = (mk 1 .done 528 .decrypt 1 6 []).phase ∧
      (mk 1 .done 528 .encrypt 1 2 []).blk = (mk 1 .done 528 .decrypt 1 6 []).blk) := by decide

theorem witness_StateIsHeldWhileQuiet :
    let s := mk 1 .done 528 .encrypt 7 2 [PortIn.nop, PortIn.nop, encReq]
    s.phase ≠ .busy ∧ 2 ≤ s.inputs.length ∧ (∀ p ∈ s.inputs.take 2, p.rst = false ∧ p.start = false) := by decide

theorem witness_ResetEdgesGiveIdle :
    let s := mk 1 .busy 5 .encrypt 7 2 [resetAndStart, PortIn.reset, encReq]
    1 + 1 ≤ s.inputs.length ∧ (∀ p ∈ s.inputs.take (1 + 1), p.rst = true) := by decide

theorem witness_ResetAbandonsTheOperation :
    let s := mk 1 .busy 527 .encrypt 7 2 [PortIn.reset, PortIn.nop, PortIn.nop]
    s.phase = .busy ∧ s.inputs = PortIn.reset :: [PortIn.nop, PortIn.nop] ∧ PortIn.reset.rst = true ∧
    2 ≤ [PortIn.nop, PortIn.nop].length ∧
    (∀ q ∈ [PortIn.nop, PortIn.nop].take 2, q.rst = false ∧ q.start = false) := by decide

/-- Two states in `IDLE` that differ in `BLK`, `KEY` and `MODE`, under inputs that start an operation. -/
theorem witness_UnspecifiedValuesAreNeverObserved :
    let s := mk 1 .idle 0 .encrypt 1 2 [encReq, PortIn.nop]
    let t := mk 1 .idle 0 .decrypt 5 6 [encReq, PortIn.nop]
    2 ≤ s.inputs.length ∧ s.SameSpecified t ∧ s ≠ t := by decide

/-- States with the invariant in every phase, each of which steps. -/
theorem witness_StepKeepsTheInvariant :
    (mk 1 .idle 0 .encrypt 1 2 [encReq]).Inv ∧ (mk 48 .busy 480 .encrypt 1 2 [PortIn.nop]).Inv ∧
    (mk 528 .done 528 .encrypt 1 2 [decReq]).Inv ∧
    nextState (step (mk 1 .idle 0 .encrypt 1 2 [encReq])) ≠ none := by decide +kernel

/-- A state before the reset that breaks the invariant. -/
theorem witness_StatesReachedFromResetKeepTheInvariant :
    let s := mk 3 .busy 1000 .encrypt 1 2 [PortIn.reset, encReq]
    s.config.wf = true ∧ ¬ s.Inv ∧ s.inputs = PortIn.reset :: [encReq] ∧ PortIn.reset.rst = true ∧
    1 ≤ [encReq].length := by decide

/-- One round into the operation of V-C9, with a request that is dropped. -/
theorem witness_StepCarriesTheOperationOn :
    let s := mk 1 .busy 1 .encrypt 0x891A2B3C 0x80000000657F6806 [decReq]
    s.Inv ∧ s.Carries .encrypt 0x12345678 k1 ∧ s.inputs = decReq :: [] ∧ decReq.rst = false ∧ ¬ s.Accepts decReq := by
  decide +kernel

/-- With U = 48 an operation takes 11 round steps; at the accepting edge and at the last edge in flight. -/
theorem witness_OperationInFlight :
    let ps := List.replicate 11 decReq
    let s := mk 48 .done 528 .decrypt 1 2 (encReq :: ps)
    s.config.wf = true ∧ s.Accepts encReq ∧ s.inputs = encReq :: ps ∧
    (0 < 528 / s.config.roundsPerCycle ∧ 10 < 528 / s.config.roundsPerCycle) ∧ 10 ≤ ps.length ∧
    (∀ q ∈ ps.take 10, q.rst = false) := by decide

theorem witness_AcceptedCommandEndsWithTheCipherResult :
    let ps := List.replicate 11 decReq
    let s := mk 48 .idle 0 .decrypt 1 2 (encReq :: ps)
    s.config.wf = true ∧ s.Accepts encReq ∧ s.inputs = encReq :: ps ∧ 528 / s.config.roundsPerCycle ≤ ps.length ∧
    (∀ q ∈ ps.take (528 / s.config.roundsPerCycle), q.rst = false) := by decide

/-- The same command accepted in two states, under two values of U. -/
theorem witness_ResultDependsOnlyOnTheCommand :
    let ps := List.replicate 11 decReq
    let qs := [PortIn.nop]
    let s := mk 48 .idle 0 .decrypt 1 2 (encReq :: ps)
    let t := mk 528 .done 528 .encrypt 3 4 (encReq :: qs)
    s.config.wf = true ∧ t.config.wf = true ∧ s.Accepts encReq ∧ t.Accepts encReq ∧ s.inputs = encReq :: ps ∧
    t.inputs = encReq :: qs ∧ ps.length = 528 / s.config.roundsPerCycle ∧ qs.length = 528 / t.config.roundsPerCycle ∧
    (∀ q ∈ ps ++ qs, q.rst = false) := by decide

/-- For both commands, with an edge held after the end. -/
theorem witness_KeyRegisterAtCompletion :
    let ps := [decReq, PortIn.nop]
    let s := mk 528 .idle 0 .decrypt 1 2 (encReq :: ps)
    s.config.wf = true ∧ s.Accepts encReq ∧ s.Accepts decReq ∧ s.inputs = encReq :: ps ∧
    528 / s.config.roundsPerCycle + 1 ≤ ps.length ∧
    (∀ q ∈ ps.take (528 / s.config.roundsPerCycle), q.rst = false) ∧
    (∀ q ∈ (ps.drop (528 / s.config.roundsPerCycle)).take 1, q.rst = false ∧ q.start = false) ∧
    encReq.mode = 0 ∧ decReq.mode = 1 := by decide

/-- Different data and operands, the same control. -/
theorem witness_TimingDoesNotDependOnData :
    let s := mk 1 .busy 3 .encrypt 1 2 [encReq, PortIn.nop]
    let t := mk 1 .busy 3 .decrypt 5 6 [decReq, PortIn.nop]
    2 ≤ s.inputs.length ∧ s.phase = t.phase ∧ s.cnt = t.cnt ∧ s.config = t.config ∧
    s.inputs.map (fun p => (p.rst, p.start)) = t.inputs.map (fun p => (p.rst, p.start)) ∧ s ≠ t := by decide

theorem witness_HeldStartLaunchesAgain :
    let s := mk 528 .idle 0 .encrypt 0 0 (encReq :: [decReq] ++ decReq :: [PortIn.nop])
    s.config.wf = true ∧ s.phase ≠ .busy ∧ [decReq].length = 528 / s.config.roundsPerCycle ∧
    (∀ r ∈ encReq :: [decReq] ++ [decReq], r.rst = false ∧ r.start = true) := by decide

theorem witness_ExhaustedInputsAreQuiet :
    State.reset.inputs = [] ∧ State.reset.phase ≠ .busy ∧
    (mk 1 .busy 3 .encrypt 0 0 []).inputs = [] ∧ (mk 1 .busy 3 .encrypt 0 0 []).phase = .busy := by decide

/-- A host program that runs to its end. -/
theorem witness_HostProgramIsItsInputVectors :
    outcome [.encrypt (.lit 1) (.lit 2), .nop 1, .expect (.busy true)] State.reset = .ok ([], 2, .busy) := by
  decide +kernel

/-- One state for each clause. -/
theorem witness_WaitTakesTheEdgesLeft :
    (mk 1 .busy 527 .encrypt 1 2 []).Inv ∧ (mk 1 .done 528 .encrypt 1 2 []).Inv ∧ State.reset.Inv ∧
    outcome [.wait] (mk 1 .busy 527 .encrypt 1 2 []) = .ok ([], 1, .done) := by decide +kernel

theorem witness_RunStatementsBindTheResult :
    (HostRun.start State.reset).machine.config.wf = true ∧ (HostRun.start State.reset).machine.phase ≠ .busy := by decide

end Sys2Proof.Tests
end

section
/-! What one edge does, by the inputs sampled: an equation for each branch of the step (41_cipher_operations.md R71),
the inversion of a step, and the two inductions over a run of edges. -/

namespace Sys2Proof.Machine

variable {s t : State} {p : PortIn} {ps : List PortIn}

/-! ### One equation per branch -/

theorem edge_of_rst (hr : p.rst = true) : edge p s = s.resetEdge := by
  simp [edge, hr]

theorem edge_of_accepts (ha : s.Accepts p) : edge p s = s.accept (Mode.ofBit p.mode) p.blockIn p.keyIn := by
  obtain ⟨hr, hs, hb⟩ := ha
  simp [edge, hr, hs, State.requestEdge_not_busy s _ _ _ hb]

theorem edge_of_busy (hr : p.rst = false) (hb : s.phase = .busy) : edge p s = s.roundStep := by
  simp [edge, hr, State.requestEdge_busy s _ _ _ hb, State.quietEdge_busy s hb]

theorem edge_of_quiet (hr : p.rst = false) (hs : p.start = false) (hb : s.phase ≠ .busy) : edge p s = s := by
  simp [edge, hr, hs, State.quietEdge_not_busy s hb]

/-- Everything a step with the inputs `p` can have done: reset, accepted, performed a round step, or held. -/
theorem step_next_cases (hin : s.inputs = p :: ps) (hstep : step s = .next t) :
    (p.rst = true ∧ t = { s with inputs := ps }.resetEdge) ∨
    (s.Accepts p ∧ t = { s with inputs := ps }.accept (Mode.ofBit p.mode) p.blockIn p.keyIn) ∨
    (p.rst = false ∧ s.phase = .busy ∧ t = { s with inputs := ps }.roundStep) ∨
    (p.rst = false ∧ p.start = false ∧ s.phase ≠ .busy ∧ t = { s with inputs := ps }) := by
  rw [step_cons s p ps hin] at hstep
  cases hstep
  obtain ⟨hr, he⟩ | ⟨hr, hs, hb, he⟩ | ⟨hr, hb, he⟩ | ⟨hr, hs, hb, he⟩ := edge_cases p { s with inputs := ps }
  · exact .inl ⟨hr, he⟩
  · exact .inr (.inl ⟨⟨hr, hs, hb⟩, he⟩)
  · exact .inr (.inr (.inl ⟨hr, hb, he⟩))
  · exact .inr (.inr (.inr ⟨hr, hs, hb, he⟩))

/-! ### Runs -/

/-- A relation between two states that every edge keeps holds after every number of edges. -/
theorem runEdges_keeps_rel {R : State → State → Prop}
    (hR : ∀ s s', R s s' → R (edge s.sampled s.advanceInputs) (edge s'.sampled s'.advanceInputs))
    (n : Nat) {s s' : State} (h : R s s') :
    ∃ t t' : State, runEdges n s = .next t ∧ runEdges n s' = .next t' ∧ R t t' := by
  induction n generalizing s s' with
  | zero => exact ⟨s, s', rfl, rfl, h⟩
  | succ n ih =>
    rw [runEdges_succ, runEdges_succ]
    exact ih (hR s s' h)

/-- A predicate that every edge keeps holds after every number of edges. -/
theorem runEdges_keeps {P : State → Prop} (hP : ∀ s, P s → P (edge s.sampled s.advanceInputs))
    (n : Nat) (h : P s) : ∃ t : State, runEdges n s = .next t ∧ P t := by
  obtain ⟨t, _, hrun, _, ht⟩ := runEdges_keeps_rel (R := fun s _ => P s) (fun s _ => hP s) n (s' := s) h
  exact ⟨t, hrun, ht⟩

end Sys2Proof.Machine
end

section
/-! The outputs (10_state.md R22 to R25, R28, R29). -/

namespace Sys2Proof.Machine

/-- `block_out` as a function of the phase and the block. -/
theorem State.blockOut_eq_some_iff (s : State) (v : Block) : s.blockOut = some v ↔ s.phase = .done ∧ v = s.blk := by
  by_cases hd : s.phase = .done
  · rw [State.blockOut_of_done s hd, Option.some_inj]
    exact ⟨fun h => ⟨hd, h.symm⟩, fun ⟨_, h⟩ => h.symm⟩
  · simp [State.blockOut_of_not_done s hd, hd]

/-- A host's `READ` while `done = 0` is refused (70_reset_and_hazards.md R108). -/
theorem HostRun.read_of_not_done (h : HostRun) (r : String) (hd : h.machine.done = false) :
    h.read r = .error (.refused .blockOutHasNoValue) := by
  have hp : h.machine.phase ≠ .done := fun hp => by simp [(State.done_iff _).mpr hp] at hd
  rw [HostRun.read, State.blockOut_of_not_done _ hp]

/-- Settles O27, by the three phases. -/
theorem statusOutputsFollowPhase : Obligations.StatusOutputsFollowPhase := by
  intro s
  refine ⟨s.busy_iff, s.done_iff, ?_⟩
  cases hp : s.phase <;> simp [State.status, State.busy, State.done, hp, State.nlfConstOut, nlfConst]

/-- Settles O28. -/
theorem blockOutHasAValueOnlyInDone : Obligations.BlockOutHasAValueOnlyInDone :=
  ⟨State.blockOut_eq_some_iff, HostRun.read_of_not_done⟩

/-- Settles O29: outside `DONE` neither state shows its block. -/
theorem outputsHideTheRest : Obligations.OutputsHideTheRest := by
  intro s t hphase hblk
  have hout : s.blockOut = t.blockOut := by
    by_cases hd : s.phase = .done
    · rw [State.blockOut_of_done s hd, State.blockOut_of_done t (hphase ▸ hd), hblk hd]
    · rw [State.blockOut_of_not_done s hd, State.blockOut_of_not_done t (hphase ▸ hd)]
  simp [State.outputs, State.busy, State.done, State.nlfConstOut, hphase, hout]

/-- Settles O31. -/
theorem resetStateValues : Obligations.ResetStateValues :=
  ⟨rfl, rfl, rfl, rfl, rfl, rfl⟩

end Sys2Proof.Machine
end

section
/-! The reachable-state invariant (10_state.md R30): reset and acceptance establish it, a round step keeps it because
the parameter divides both `CNT` and 528. -/

namespace Sys2Proof.Machine

variable {s : State}

/-- From a reachable `BUSY` state the 10-bit sum is the sum (41_cipher_operations.md R72). -/
theorem State.Inv.nextCount_toNat (hI : s.Inv) (hb : s.phase = .busy) :
    s.nextCount.toNat = s.cnt.toNat + s.config.roundsPerCycle ∧ s.nextCount.toNat ≤ 528 := by
  obtain ⟨hwf, -, hbusy, -⟩ := hI
  obtain ⟨hcnt, hlt⟩ := hbusy hb
  have hU := (config_wf_iff _).mp hwf
  have hroom : s.config.roundsPerCycle ≤ 528 - s.cnt.toNat := Nat.le_of_dvd (by omega) (Nat.dvd_sub hU hcnt)
  have hsum : s.nextCount.toNat = s.cnt.toNat + s.config.roundsPerCycle := by
    rw [State.nextCount, BitVec.toNat_add, BitVec.toNat_ofNat]
    omega
  omega

/-- A round step in `BUSY` ends in `DONE` at the count of 528 and stays in `BUSY` at any other. -/
theorem State.roundStep_phase_of_busy (hb : s.phase = .busy) :
    (s.nextCount = 528#10 ∧ s.roundStep.phase = .done) ∨ (s.nextCount ≠ 528#10 ∧ s.roundStep.phase = .busy) := by
  by_cases hc : s.nextCount = 528#10
  · exact .inl ⟨hc, if_pos hc⟩
  · exact .inr ⟨hc, (if_neg hc).trans hb⟩

theorem State.resetEdge_inv (hwf : s.config.wf = true) : s.resetEdge.Inv :=
  ⟨hwf, fun _ => rfl, nofun, nofun⟩

theorem State.accept_inv (hwf : s.config.wf = true) (m : Mode) (b : Block) (k : Key) : (s.accept m b k).Inv :=
  ⟨hwf, nofun, fun _ => ⟨Nat.dvd_zero _, Nat.zero_lt_succ _⟩, nofun⟩

theorem State.Inv.roundStep (hI : s.Inv) (hb : s.phase = .busy) : s.roundStep.Inv := by
  obtain ⟨hsum, hle⟩ := hI.nextCount_toNat hb
  obtain ⟨hwf, -, hbusy, -⟩ := hI
  have hdvd : s.config.roundsPerCycle ∣ s.nextCount.toNat := hsum ▸ Nat.dvd_add_self_right.mpr (hbusy hb).1
  obtain ⟨hc, hp⟩ | ⟨hc, hp⟩ := State.roundStep_phase_of_busy hb
  · have hdone : s.roundStep.cnt.toNat = 528 := congrArg BitVec.toNat hc
    simp [State.Inv, -State.roundStep_phase, -State.roundStep_cnt, hp, hwf, hdone]
  · have hlt : s.nextCount.toNat < 528 :=
      Nat.lt_of_le_of_ne hle (fun h => hc ((nextCount_eq_rounds_iff s).mpr h))
    simp [State.Inv, -State.roundStep_phase, hp, hwf, hdvd, hlt]

theorem State.Inv.edge (hI : s.Inv) (p : PortIn) : (edge p s).Inv := by
  obtain ⟨_, he⟩ | ⟨_, _, _, he⟩ | ⟨_, hb, he⟩ | ⟨_, _, _, he⟩ := edge_cases p s <;> rw [he]
  · exact State.resetEdge_inv hI.1
  · exact State.accept_inv hI.1 _ _ _
  · exact hI.roundStep hb
  · exact hI

theorem State.Inv.cnt_le (hI : s.Inv) : s.cnt.toNat ≤ 528 := by
  obtain ⟨-, hidle, hbusy, hdone⟩ := hI
  cases hp : s.phase with
  | idle => simp [hidle hp]
  | busy => exact (hbusy hp).2.le
  | done => exact (hdone hp).le

/-- Settles O35. -/
theorem invariantAtReset : Obligations.InvariantAtReset :=
  ⟨by decide, fun _ => rfl, nofun, nofun⟩

/-- Settles O36: passing over the inputs touches no field of the invariant, and the edge keeps it. -/
theorem stepKeepsTheInvariant : Obligations.StepKeepsTheInvariant := by
  intro s t hI hstep
  rw [step_eq] at hstep
  cases hstep
  exact State.Inv.edge (s := s.advanceInputs) hI s.sampled

/-- Settles O37: the reset edge establishes the invariant, and the later edges keep it. -/
theorem statesReachedFromResetKeepTheInvariant : Obligations.StatesReachedFromResetKeepTheInvariant := by
  intro n s p ps hwf hin hr _
  rw [runEdges_cons n s p ps hin, edge_of_rst hr]
  have hreset : { s with inputs := ps }.resetEdge.Inv := State.resetEdge_inv hwf
  obtain ⟨t, hrun, ht⟩ := runEdges_keeps (P := State.Inv)
    (fun u hu => State.Inv.edge (s := u.advanceInputs) hu u.sampled) n hreset
  exact ⟨t, hrun, ht, ht.cnt_le⟩

end Sys2Proof.Machine
end

section
/-! What the spec leaves unspecified after a reset (10_state.md R31) stays unobserved: the two runs take the same branch
at every edge, and the registers that may differ are loaded before they are read. -/

namespace Sys2Proof.Machine

variable {s s' : State}

theorem State.SameSpecified.outputs_eq (h : s.SameSpecified s') : s.outputs = s'.outputs := by
  obtain ⟨hphase, -, -, -, hregs⟩ := h
  refine outputsHideTheRest s s' hphase (fun hd => ?_)
  obtain hi | ⟨hblk, -, -⟩ := hregs
  · simp [hd] at hi
  · exact hblk

theorem State.SameSpecified.sampled_eq (h : s.SameSpecified s') : s.sampled = s'.sampled := by
  obtain ⟨-, -, -, hin, -⟩ := h
  simp [State.sampled, hin]

theorem State.SameSpecified.advanceInputs (h : s.SameSpecified s') :
    s.advanceInputs.SameSpecified s'.advanceInputs := by
  obtain ⟨hphase, hcnt, hconfig, hin, hregs⟩ := h
  exact ⟨hphase, hcnt, hconfig, congrArg List.tail hin, hregs⟩

/-- In `BUSY` the two states agree in every register, so their round steps do. -/
theorem State.SameSpecified.roundStep (h : s.SameSpecified s') (hb : s.phase = .busy) :
    s.roundStep.SameSpecified s'.roundStep := by
  obtain ⟨hphase, hcnt, hconfig, hin, hi | ⟨hblk, hkey, hmode⟩⟩ := h
  · simp [hb] at hi
  · have hnext : s.nextCount = s'.nextCount := by rw [State.nextCount, State.nextCount, hcnt, hconfig]
    simp [State.SameSpecified, ← hphase, hconfig, hin, hblk, hkey, hmode, hnext]

theorem State.SameSpecified.edge (h : s.SameSpecified s') (p : PortIn) : (edge p s).SameSpecified (edge p s') := by
  have ⟨hphase, _, hconfig, hin, _⟩ := h
  obtain ⟨hr, he⟩ | ⟨hr, hs, hb, he⟩ | ⟨hr, hb, he⟩ | ⟨hr, hs, hb, he⟩ := edge_cases p s <;> rw [he]
  · rw [edge_of_rst hr]
    exact ⟨rfl, rfl, hconfig, hin, .inl rfl⟩
  · rw [edge_of_accepts ⟨hr, hs, hphase ▸ hb⟩]
    exact ⟨rfl, rfl, hconfig, hin, .inr ⟨rfl, rfl, rfl⟩⟩
  · rw [edge_of_busy hr (hphase ▸ hb)]
    exact h.roundStep hb
  · rw [edge_of_quiet hr hs (hphase ▸ hb)]
    exact h

/-- Settles O34: every edge keeps the relation, and related states show the same outputs. -/
theorem unspecifiedValuesAreNeverObserved : Obligations.UnspecifiedValuesAreNeverObserved := by
  intro n s s' _ h
  obtain ⟨t, t', hrun, hrun', ht⟩ := runEdges_keeps_rel (R := State.SameSpecified)
    (fun u u' hu => hu.sampled_eq ▸ hu.advanceInputs.edge u.sampled) n h
  exact ⟨t, t', hrun, hrun', ht.outputs_eq, ht⟩

end Sys2Proof.Machine
end

section
/-! The frame of the commands, the transitions of `PHASE`, and when each register is written (10_state.md R15 to R25,
R29). -/

namespace Sys2Proof.Machine

/-- Every command is the one of some direction and operands. -/
theorem exists_eq_ofFields (i : Instr) : ∃ m b k, i = Instr.ofFields m b k := by
  cases i with
  | encrypt b k => exact ⟨.encrypt, b, k, rfl⟩
  | decrypt b k => exact ⟨.decrypt, b, k, rfl⟩

/-- Settles O21: the command is requested, and it is dropped in `BUSY` and accepted elsewhere. -/
theorem commandFrame : Obligations.CommandFrame := by
  intro i s t hexec
  obtain ⟨m, b, k, rfl⟩ := exists_eq_ofFields i
  rw [exec_ofFields] at hexec
  cases hexec
  by_cases hb : s.phase = .busy
  · rw [State.requestEdge_busy s m b k hb]
    have hphase : s.roundStep.phase = .busy ∨ s.roundStep.phase = .done :=
      (State.roundStep_phase_of_busy hb).elim (fun h => .inr h.2) (fun h => .inl h.2)
    exact ⟨rfl, rfl, rfl, fun _ => ⟨rfl, rfl, hphase⟩, fun h => absurd hb h⟩
  · rw [State.requestEdge_not_busy s m b k hb]
    refine ⟨rfl, rfl, rfl, fun h => absurd h hb, fun _ => ⟨rfl, rfl, ?_⟩⟩
    cases m with
    | encrypt => exact .inl ⟨b, k, rfl, rfl, rfl, rfl⟩
    | decrypt => exact .inr ⟨b, k, rfl, rfl, rfl, rfl⟩

/-- Settles O25, by what the step did; a round step by whether the count reaches 528. -/
theorem phaseTransitions : Obligations.PhaseTransitions := by
  intro s t p ps hin hstep
  obtain ⟨hr, rfl⟩ | ⟨⟨hr, hs, hb⟩, rfl⟩ | ⟨hr, hb, ht⟩ | ⟨hr, hs, hb, rfl⟩ := step_next_cases hin hstep
  · simp [hr]
  · simp [hr, hs, hb]
  · have hcount : s.cnt + BitVec.ofNat 10 s.config.roundsPerCycle = s.nextCount := rfl
    have hphase : (s.nextCount = 528#10 ∧ t.phase = .done) ∨ (s.nextCount ≠ 528#10 ∧ t.phase = .busy) :=
      ht ▸ State.roundStep_phase_of_busy (s := { s with inputs := ps }) hb
    have hcarry : t.mode = s.mode ∧ (t.blk, t.key) = rounds s.mode s.config.roundsPerCycle (s.blk, s.key) :=
      ht ▸ ⟨rfl, rfl⟩
    rw [hcount]
    obtain ⟨hc, hp⟩ | ⟨hc, hp⟩ := hphase <;> simp [hp, hc, hr, hb, hcarry]
  · simp [hr, hs, hb]

/-- Settles O26: only reset, acceptance and, but for `MODE`, a round step write a register. -/
theorem registersAreWrittenOnlyAsListed : Obligations.RegistersAreWrittenOnlyAsListed := by
  intro s t p ps hin hstep
  obtain ⟨hr, rfl⟩ | ⟨ha, rfl⟩ | ⟨_, hb, rfl⟩ | ⟨_, _, _, rfl⟩ := step_next_cases hin hstep
  · simp [hr]
  · exact ⟨fun _ => .inr (.inl ha), fun _ => .inr (.inl ha), fun _ => .inr (.inl ha), fun _ => .inr ha, rfl⟩
  · simp [hb]
  · simp

/-- Settles O30, by induction on the number of edges. -/
theorem stateIsHeldWhileQuiet : Obligations.StateIsHeldWhileQuiet := by
  intro n
  induction n with
  | zero => intros; rfl
  | succ n ih =>
    intro s hb hlen hquiet
    cases hin : s.inputs with
    | nil => simp [hin] at hlen
    | cons p ps =>
      simp only [hin, List.length_cons, List.take_succ_cons, List.forall_mem_cons] at hlen hquiet
      obtain ⟨⟨hr, hs⟩, hrest⟩ := hquiet
      rw [runEdges_cons n s p ps hin, edge_of_quiet (s := { s with inputs := ps }) hr hs hb]
      exact ih { s with inputs := ps } hb (by simpa using hlen) hrest

/-- In `BUSY` a round step carries the operation on: the rounds compose, and the count does not wrap. -/
theorem State.Carries.roundStep {s : State} {m : Mode} {b : Block} {k : Key} (hC : s.Carries m b k) (hI : s.Inv)
    (hb : s.phase = .busy) : s.roundStep.Carries m b k := by
  obtain ⟨rfl, -, hregs⟩ := hC
  refine ⟨rfl, ?_, ?_⟩
  · obtain ⟨_, hp⟩ | ⟨_, hp⟩ := State.roundStep_phase_of_busy hb <;> rw [hp] <;> decide
  · calc (s.roundStep.blk, s.roundStep.key)
        = rounds s.mode s.config.roundsPerCycle (s.blk, s.key) := rfl
      _ = rounds s.mode s.nextCount.toNat (b, k) := by
        rw [hregs, ← rounds_add, (hI.nextCount_toNat hb).1]

/-- Settles O38: the step was a round step, which carries the operation on, or held the registers. -/
theorem stepCarriesTheOperationOn : Obligations.StepCarriesTheOperationOn := by
  intro s t p ps m b k hI hC hin hr hna hstep
  obtain ⟨hr', rfl⟩ | ⟨ha, rfl⟩ | ⟨_, hb, rfl⟩ | ⟨_, _, _, rfl⟩ := step_next_cases hin hstep
  · simp [hr] at hr'
  · exact absurd ha hna
  · exact State.Carries.roundStep (s := { s with inputs := ps }) hC hI hb
  · exact hC

end Sys2Proof.Machine
end

section
/-! The packed command word (30_encoding.md R48 to R53): its fields bit by bit, and that the decoder and the encoder are
inverse to each other. -/

namespace Sys2Proof

/-! ### The fields of the packed word -/

theorem packCmd_mode_bit (m : BitVec 1) (b : Block) (k : Key) : (packCmd m b k).getLsbD 0 = m.getLsbD 0 := by
  rw [packCmd, BitVec.getLsbD_append, if_pos Nat.zero_lt_one]

theorem packCmd_block_bit (m : BitVec 1) (b : Block) (k : Key) {i : Nat} (hi : i < 32) :
    (packCmd m b k).getLsbD (1 + i) = b.getLsbD i := by
  have hmode : ¬ 1 + i < 1 := by omega
  rw [packCmd, BitVec.getLsbD_append, if_neg hmode, Nat.add_sub_cancel_left, BitVec.getLsbD_append, if_pos hi]

theorem packCmd_key_bit (m : BitVec 1) (b : Block) (k : Key) (i : Nat) :
    (packCmd m b k).getLsbD (33 + i) = k.getLsbD i := by
  have hmode : ¬ 33 + i < 1 := by omega
  have hblock : ¬ 33 + i - 1 < 32 := by omega
  have hkey : 33 + i - 1 - 32 = i := by omega
  rw [packCmd, BitVec.getLsbD_append, if_neg hmode, BitVec.getLsbD_append, if_neg hblock, hkey]

/-- Every word is packed from its own three fields. -/
theorem packCmd_extractLsb' (w : CmdWord) :
    packCmd (w.extractLsb' 0 1) (w.extractLsb' 1 32) (w.extractLsb' 33 64) = w := by
  have hblock : w.extractLsb' 33 64 ++ w.extractLsb' 1 32 = w.extractLsb' 1 96 :=
    BitVec.extractLsb'_append_extractLsb'_eq_extractLsb' rfl
  have hword : w.extractLsb' 1 96 ++ w.extractLsb' 0 1 = w.extractLsb' 0 97 :=
    BitVec.extractLsb'_append_extractLsb'_eq_extractLsb' rfl
  rw [packCmd, hblock, hword, BitVec.extractLsb'_eq_self]

/-! ### Decoding and encoding -/

@[simp] theorem Mode.ofBit_toBit (m : Mode) : Mode.ofBit m.toBit = m := by
  cases m <;> rfl

@[simp] theorem Mode.toBit_ofBit (b : BitVec 1) : (Mode.ofBit b).toBit = b := by
  revert b
  decide

theorem encode_ofFields (m : Mode) (b : Block) (k : Key) : encode (Instr.ofFields m b k) = packCmd m.toBit b k := by
  cases m <;> rfl

theorem decode_encode (i : Instr) : decode (encode i) = i := by
  cases i with
  | encrypt b k => exact decode_packCmd 0 b k
  | decrypt b k => exact decode_packCmd 1 b k

theorem encode_decode (w : CmdWord) : encode (decode w) = w := by
  rw [decode, encode_ofFields, Mode.toBit_ofBit, packCmd_extractLsb']

/-- The number of a packed word decodes as the word does. -/
theorem decodeNat_toNat (w : CmdWord) : decodeNat w.toNat = .ok (decode w) := by
  have hw : isCmdWord w.toNat = true := decide_eq_true w.isLt
  rw [decodeNat, if_pos hw, BitVec.ofNat_toNat, BitVec.setWidth_eq]

/-- A number that does not fit 97 bits is rejected. -/
theorem decodeNat_of_le {n : Nat} (hn : 2 ^ 97 ≤ n) : decodeNat n = .error .wordTooWide := by
  have hw : ¬ isCmdWord n = true := by simpa [isCmdWord] using hn
  rw [decodeNat, if_neg hw]

theorem decodeTableWord_toNat {nbits : Nat} (hn : 97 ≤ nbits) (w : CmdWord) :
    decodeTableWord nbits w.toNat = some (decode w) := by
  have hlt : w.toNat < 2 ^ nbits := w.isLt.trans_le (Nat.pow_le_pow_right Nat.two_pos hn)
  rw [decodeTableWord, Nat.mod_eq_of_lt hlt, decodeNat_toNat]

/-- Settles O3: a number and a table entry decode as the word does. -/
theorem decodeUndoesEncode : Obligations.DecodeUndoesEncode := by
  intro i
  refine ⟨decode_encode i, ?_, fun nbits hn => ?_⟩
  · rw [decodeNat_toNat, decode_encode]
  · rw [decodeTableWord_toNat hn, decode_encode]

/-- Settles O2: both commands pack their operands alike. -/
theorem packedWordHasFieldsInPlace : Obligations.PackedWordHasFieldsInPlace :=
  ⟨fun b k => ⟨packCmd_mode_bit 0 b k, packCmd_mode_bit 1 b k,
    fun _ => packCmd_block_bit 0 b k, fun _ => packCmd_block_bit 1 b k,
    fun i _ => packCmd_key_bit 0 b k i, fun i _ => packCmd_key_bit 1 b k i⟩, by decide⟩

/-- The mode bit alone tells which command a word decodes to (30_encoding.md R49): it is packed from that command. -/
theorem decode_command_iff_mode_bit (w : CmdWord) :
    ((∃ b k, decode w = .encrypt b k) ↔ w.getLsbD 0 = false) ∧
    ((∃ b k, decode w = .decrypt b k) ↔ w.getLsbD 0 = true) := by
  have hw := encode_decode w
  cases hd : decode w with
  | encrypt b k =>
    have hbit : w.getLsbD 0 = false := by rw [← hw, hd]; exact packCmd_mode_bit 0 b k
    rw [hbit]
    simp
  | decrypt b k =>
    have hbit : w.getLsbD 0 = true := by rw [← hw, hd]; exact packCmd_mode_bit 1 b k
    rw [hbit]
    simp

/-- Settles O4. -/
theorem everyWordIsOneCommand : Obligations.EveryWordIsOneCommand :=
  ⟨encode_decode, fun w => (decode_command_iff_mode_bit w).1, fun w => (decode_command_iff_mode_bit w).2,
    fun _ => decodeNat_of_le⟩

/-- Settles O1: the fields of each listed word. -/
theorem listedWordsDecodeAsListed : Obligations.ListedWordsDecodeAsListed := by
  unfold Obligations.ListedWordsDecodeAsListed
  decide

end Sys2Proof
end

section
/-! The commands at the edge that requests them (30_encoding.md R46, 70_reset_and_hazards.md R100). -/

namespace Sys2Proof.Machine

theorem exec_of_busy {s : State} (i : Instr) (hb : s.phase = .busy) : exec i s = .next s.roundStep := by
  obtain ⟨m, b, k, rfl⟩ := exists_eq_ofFields i
  rw [exec_ofFields, State.requestEdge_busy s m b k hb]

theorem exec_of_not_busy {s : State} (m : Mode) (b : Block) (k : Key) (hb : s.phase ≠ .busy) :
    exec (Instr.ofFields m b k) s = .next (s.accept m b k) := by
  rw [exec_ofFields, State.requestEdge_not_busy s m b k hb]

theorem step_present (s : State) (p : PortIn) : step (s.present p) = .next (edge p s) := by
  rw [step_eq, State.sampled_present, State.advanceInputs_present]

/-- Settles O19: the command's edge and the quiet edge are the same round step. -/
theorem commandsWhileBusyAreDropped : Obligations.CommandsWhileBusyAreDropped := by
  intro s i p hb hr _
  have hphase : s.roundStep.phase ≠ .idle := by
    obtain ⟨_, hp⟩ | ⟨_, hp⟩ := State.roundStep_phase_of_busy hb <;> rw [hp] <;> decide
  refine ⟨?_, s.roundStep, exec_of_busy i hb, rfl, hphase, rfl⟩
  rw [exec_of_busy i hb, step_present, edge_of_busy hr hb]

/-- Settles O16. -/
theorem stepRunsTheDecodedCommand : Obligations.StepRunsTheDecodedCommand := by
  intro s p ps hin hr hs
  refine ⟨?_, rfl⟩
  rw [step_cons s p ps hin, PortIn.cmd, decode_packCmd, exec_ofFields]
  simp [edge, hr, hs]

/-- Settles O18: each command is accepted. -/
theorem commandsAreAcceptedUnlessBusy : Obligations.CommandsAreAcceptedUnlessBusy :=
  fun _ b k hb => ⟨exec_of_not_busy .encrypt b k hb, exec_of_not_busy .decrypt b k hb⟩

end Sys2Proof.Machine
end

section
/-! A host program as the input vectors it drives (30_encoding.md R55): each statement drives a list of vectors, and the
block is in the state those edges give. -/

namespace Sys2Proof.Machine

/-! ### The edges of a list of input vectors -/

/-- The state after one edge for each vector, the first vector's first. -/
def edges (ps : List PortIn) (s : State) : State :=
  ps.foldl (fun t p => edge p t) s

@[simp] theorem edges_append (ps qs : List PortIn) (s : State) : edges (ps ++ qs) s = edges qs (edges ps s) :=
  List.foldl_append

/-- What an edge does with its own inputs does not depend on those still to come. -/
theorem edge_with_inputs (p : PortIn) (s : State) (ins : List PortIn) :
    edge p { s with inputs := ins } = { edge p s with inputs := ins } := by
  obtain ⟨hr, he⟩ | ⟨hr, hs, hb, he⟩ | ⟨hr, hb, he⟩ | ⟨hr, hs, hb, he⟩ := edge_cases p s <;> rw [he]
  · exact edge_of_rst hr
  · exact edge_of_accepts ⟨hr, hs, hb⟩
  · exact edge_of_busy hr hb
  · exact edge_of_quiet hr hs hb

/-- Feeding the block a list of vectors before its other inputs, one an edge, performs their edges. -/
theorem runEdges_inputs_append (ps : List PortIn) (s : State) :
    runEdges ps.length { s with inputs := ps ++ s.inputs } = .next (edges ps s) := by
  induction ps generalizing s with
  | nil => rfl
  | cons p ps ih =>
    calc runEdges (ps.length + 1) { s with inputs := p :: ps ++ s.inputs }
        = runEdges ps.length (edge p { s with inputs := ps ++ s.inputs }) := runEdges_cons _ _ p (ps ++ s.inputs) rfl
      _ = runEdges ps.length { edge p s with inputs := ps ++ (edge p s).inputs } := by
        rw [edge_with_inputs, edge_inputs]
      _ = .next (edges (p :: ps) s) := ih (edge p s)

/-! ### What each statement drives -/

/-- The host run after one more driven edge. -/
def HostRun.afterEdge (h : HostRun) (p : PortIn) : HostRun :=
  { h with machine := edge p h.machine, driven := p :: h.driven }

theorem HostRun.afterEdge_driven (h : HostRun) (p : PortIn) : (h.afterEdge p).driven = p :: h.driven := rfl

theorem HostRun.drive_eq_afterEdge (h : HostRun) (p : PortIn) : h.drive p = .ok (h.afterEdge p) :=
  h.drive_eq p

/-- From `h` the host drove a list of vectors, and the block took their edges, to come to `h'`. -/
def HostRun.DroveTo (h h' : HostRun) : Prop :=
  ∃ ps : List PortIn, h'.driven = ps.reverse ++ h.driven ∧ h'.machine = edges ps h.machine

variable {h h₁ h' : HostRun}

/-- A statement that leaves the block and the record alone drove nothing. -/
theorem HostRun.DroveTo.of_no_edge (hd : h'.driven = h.driven) (hm : h'.machine = h.machine) : h.DroveTo h' :=
  ⟨[], hd, hm⟩

theorem HostRun.DroveTo.afterEdge (h : HostRun) (p : PortIn) : h.DroveTo (h.afterEdge p) :=
  ⟨[p], rfl, rfl⟩

theorem HostRun.DroveTo.trans (h01 : h.DroveTo h₁) (h12 : h₁.DroveTo h') : h.DroveTo h' := by
  obtain ⟨ps, hd, hm⟩ := h01
  obtain ⟨qs, hd', hm'⟩ := h12
  exact ⟨ps ++ qs, by simp [hd', hd], by simp [hm', hm]⟩

theorem HostRun.droveTo_of_request {m : Mode} {b k : Operand} (hok : h.request m b k = .ok h') : h.DroveTo h' := by
  unfold HostRun.request at hok
  split at hok
  · rw [HostRun.drive_eq_afterEdge] at hok
    cases hok
    exact .afterEdge h _
  · cases hok
  · cases hok

theorem HostRun.droveTo_of_nops {n : Nat} (hok : h.nops n = .ok h') : h.DroveTo h' := by
  induction n generalizing h with
  | zero =>
    cases hok
    exact .of_no_edge rfl rfl
  | succ n ih =>
    rw [HostRun.nops, HostRun.drive_eq_afterEdge] at hok
    exact (HostRun.DroveTo.afterEdge h _).trans (ih hok)

theorem HostRun.waitUpTo_of_done (n : Nat) (hd : h.machine.phase = .done) : h.waitUpTo n = .ok h := by
  cases n <;> rw [HostRun.waitUpTo, if_pos ((State.done_iff _).mpr hd)]

theorem HostRun.waitUpTo_zero_of_not_done (hd : h.machine.phase ≠ .done) :
    h.waitUpTo 0 = .error .waitNeverEnds := by
  rw [HostRun.waitUpTo, if_neg (fun hd' => hd ((State.done_iff _).mp hd'))]

theorem HostRun.waitUpTo_succ_of_not_done (n : Nat) (hd : h.machine.phase ≠ .done) :
    h.waitUpTo (n + 1) = (h.afterEdge PortIn.nop).waitUpTo n := by
  rw [HostRun.waitUpTo, if_neg (fun hd' => hd ((State.done_iff _).mp hd')), HostRun.drive_eq_afterEdge]

theorem HostRun.droveTo_of_waitUpTo {n : Nat} (hok : h.waitUpTo n = .ok h') : h.DroveTo h' := by
  induction n generalizing h with
  | zero =>
    by_cases hd : h.machine.phase = .done
    · rw [HostRun.waitUpTo_of_done 0 hd] at hok
      cases hok
      exact .of_no_edge rfl rfl
    · rw [HostRun.waitUpTo_zero_of_not_done hd] at hok
      cases hok
  | succ n ih =>
    by_cases hd : h.machine.phase = .done
    · rw [HostRun.waitUpTo_of_done _ hd] at hok
      cases hok
      exact .of_no_edge rfl rfl
    · rw [HostRun.waitUpTo_succ_of_not_done n hd] at hok
      exact (HostRun.DroveTo.afterEdge h _).trans (ih hok)

theorem HostRun.droveTo_of_read {r : String} (hok : h.read r = .ok h') : h.DroveTo h' := by
  unfold HostRun.read at hok
  split at hok <;> cases hok
  exact .of_no_edge rfl rfl

theorem HostRun.droveTo_of_expect {c : Cond} (hok : h.expect c = .ok h') : h.DroveTo h' := by
  unfold HostRun.expect at hok
  split at hok <;> cases hok
  exact .of_no_edge rfl rfl

theorem HostRun.droveTo_of_runCommand {m : Mode} {b k : Operand} {r : String}
    (hok : h.runCommand m b k r = .ok h') : h.DroveTo h' := by
  unfold HostRun.runCommand at hok
  split at hok
  · cases hok
  next h₁ hreq =>
    split at hok
    · cases hok
    next h₂ hwait =>
      have to_wait : h.DroveTo h₂ := (HostRun.droveTo_of_request hreq).trans (HostRun.droveTo_of_waitUpTo hwait)
      exact to_wait.trans (HostRun.droveTo_of_read hok)

theorem HostRun.droveTo_of_exec {st : Stmt} (hok : h.exec st = .ok h') : h.DroveTo h' := by
  cases st with
  | encrypt b k => exact HostRun.droveTo_of_request hok
  | decrypt b k => exact HostRun.droveTo_of_request hok
  | nop n => exact HostRun.droveTo_of_nops hok
  | reset =>
    rw [HostRun.exec, HostRun.drive_eq_afterEdge] at hok
    cases hok
    exact .afterEdge h _
  | read r => exact HostRun.droveTo_of_read hok
  | expect c => exact HostRun.droveTo_of_expect hok
  | wait => exact HostRun.droveTo_of_waitUpTo hok
  | runEnc b k r => exact HostRun.droveTo_of_runCommand hok
  | runDec b k r => exact HostRun.droveTo_of_runCommand hok

theorem HostRun.droveTo_of_program {prog : List Stmt} (hok : h.program prog = .ok h') : h.DroveTo h' := by
  induction prog generalizing h with
  | nil =>
    cases hok
    exact .of_no_edge rfl rfl
  | cons st rest ih =>
    unfold HostRun.program at hok
    split at hok
    next h₁ hst => exact (HostRun.droveTo_of_exec hst).trans (ih hok)
    · cases hok

/-- Settles O46: the vectors driven are those the block took, and feeding them again performs the same edges. -/
theorem hostProgramIsItsInputVectors : Obligations.HostProgramIsItsInputVectors := by
  intro prog h h' hok
  obtain ⟨ps, hdriven, hmachine⟩ := HostRun.droveTo_of_program hok
  exact ⟨ps, hdriven, hmachine ▸ runEdges_inputs_append ps h.machine⟩

end Sys2Proof.Machine
end

section
/-! `WAIT` from a reachable state, and the `RUN` statements (30_encoding.md R54, 70_reset_and_hazards.md R105): each
quiet edge in `BUSY` takes one from the edges that are left. -/

namespace Sys2Proof.Machine

/-- The round steps left of the operation in flight. -/
def State.edgesLeft (s : State) : Nat :=
  (528 - s.cnt.toNat) / s.config.roundsPerCycle

theorem State.edgesLeft_le (s : State) : s.edgesLeft ≤ 528 :=
  (Nat.div_le_self _ _).trans (Nat.sub_le _ _)

/-- In `DONE` no round step is left. -/
theorem State.Inv.edgesLeft_of_done {s : State} (hI : s.Inv) (hd : s.phase = .done) : s.edgesLeft = 0 := by
  obtain ⟨-, -, -, hdone⟩ := hI
  rw [State.edgesLeft, hdone hd, Nat.sub_self, Nat.zero_div]

/-- In `BUSY` a round step is one of those left. -/
theorem State.Inv.edgesLeft_of_busy {s : State} (hI : s.Inv) (hb : s.phase = .busy) :
    s.edgesLeft = s.roundStep.edgesLeft + 1 := by
  obtain ⟨hsum, hle⟩ := hI.nextCount_toNat hb
  have hpos : 0 < s.config.roundsPerCycle := Nat.pos_of_dvd_of_pos ((config_wf_iff _).mp hI.1) (by decide)
  have hrest : 528 - s.cnt.toNat = 528 - s.nextCount.toNat + s.config.roundsPerCycle := by omega
  rw [State.edgesLeft, hrest, Nat.add_div_right _ hpos]
  rfl

/-- From `h` quiet edges came to `h'`, just as many as were left: the operation in flight has completed. -/
structure HostRun.CompletesAt (h h' : HostRun) : Prop where
  phase : h'.machine.phase = .done
  inv : h'.machine.Inv
  names : h'.names = h.names
  edges : h'.driven.length = h.driven.length + h.machine.edgesLeft
  carries : ∀ m b k, h.machine.Carries m b k → h'.machine.Carries m b k

variable {h h' : HostRun}

theorem HostRun.CompletesAt.of_done (hI : h.machine.Inv) (hd : h.machine.phase = .done) : h.CompletesAt h where
  phase := hd
  inv := hI
  names := rfl
  edges := by rw [hI.edgesLeft_of_done hd, Nat.add_zero]
  carries := fun _ _ _ hC => hC

theorem HostRun.afterEdge_nop_machine (hb : h.machine.phase = .busy) :
    (h.afterEdge PortIn.nop).machine = h.machine.roundStep := edge_of_busy (p := PortIn.nop) rfl hb

theorem HostRun.CompletesAt.of_afterEdge_nop (hI : h.machine.Inv) (hb : h.machine.phase = .busy)
    (hc : (h.afterEdge PortIn.nop).CompletesAt h') : h.CompletesAt h' where
  phase := hc.phase
  inv := hc.inv
  names := hc.names
  edges := by
    rw [hc.edges, HostRun.afterEdge_nop_machine hb, HostRun.afterEdge_driven, List.length_cons,
      hI.edgesLeft_of_busy hb]
    omega
  carries := fun m b k hC =>
    hc.carries m b k (HostRun.afterEdge_nop_machine hb ▸ hC.roundStep hI hb)

/-- A `WAIT` in `BUSY` that may take the edges that are left takes them and completes the operation. -/
theorem HostRun.waitUpTo_completes (n : Nat) (hI : h.machine.Inv) (hb : h.machine.phase = .busy)
    (hn : h.machine.edgesLeft ≤ n) : ∃ h', h.waitUpTo n = .ok h' ∧ h.CompletesAt h' := by
  induction n generalizing h with
  | zero =>
    rw [hI.edgesLeft_of_busy hb] at hn
    omega
  | succ n ih =>
    have hnot : h.machine.phase ≠ .done := by simp [hb]
    have hnext := HostRun.afterEdge_nop_machine hb
    have hI' : (h.afterEdge PortIn.nop).machine.Inv := hnext ▸ hI.roundStep hb
    rw [hI.edgesLeft_of_busy hb, ← hnext] at hn
    rw [HostRun.waitUpTo_succ_of_not_done n hnot]
    obtain ⟨_, hd⟩ | ⟨_, hb'⟩ := State.roundStep_phase_of_busy hb
    · rw [← hnext] at hd
      exact ⟨_, HostRun.waitUpTo_of_done n hd, .of_afterEdge_nop hI hb (.of_done hI' hd)⟩
    · rw [← hnext] at hb'
      obtain ⟨h', hok, hc⟩ := ih hI' hb' (Nat.le_of_succ_le_succ hn)
      exact ⟨h', hok, .of_afterEdge_nop hI hb hc⟩

/-- From a reachable `BUSY` state the edges of a `WAIT` are enough. -/
theorem HostRun.wait_completes (hI : h.machine.Inv) (hb : h.machine.phase = .busy) :
    ∃ h', h.wait = .ok h' ∧ h.CompletesAt h' :=
  HostRun.waitUpTo_completes 1024 hI hb (h.machine.edgesLeft_le.trans (by decide))

/-- In `IDLE` the edges of a `WAIT` change nothing, so it never ends. -/
theorem HostRun.waitUpTo_of_idle (n : Nat) (h : HostRun) (hi : h.machine.phase = .idle) :
    h.waitUpTo n = .error .waitNeverEnds := by
  have hnot : h.machine.phase ≠ .done := by simp [hi]
  induction n generalizing h with
  | zero => exact HostRun.waitUpTo_zero_of_not_done hnot
  | succ n ih =>
    have hheld : (h.afterEdge PortIn.nop).machine = h.machine := edge_of_quiet (p := PortIn.nop) rfl rfl (by simp [hi])
    rw [HostRun.waitUpTo_succ_of_not_done n hnot]
    exact ih _ (hheld ▸ hi) (hheld ▸ hnot)

/-- Settles O47, by the three phases. -/
theorem waitTakesTheEdgesLeft : Obligations.WaitTakesTheEdgesLeft := by
  intro h hI
  refine ⟨fun hb => ?_, HostRun.waitUpTo_of_done 1024, HostRun.waitUpTo_of_idle 1024 h⟩
  obtain ⟨h', hok, hc⟩ := HostRun.wait_completes hI hb
  exact ⟨h', hok, hc.phase, hc.names, hc.edges⟩

/-! ### The `RUN` statements -/

/-- Outside `BUSY` a request with literals that fit is one edge, which accepts the command. -/
theorem HostRun.request_of_not_busy (m : Mode) (b : Block) (k : Key) (hb : h.machine.phase ≠ .busy) :
    ∃ h', h.request m (.lit b.toNat) (.lit k.toNat) = .ok h' ∧ h'.names = h.names ∧
      h'.machine = h.machine.accept m b k := by
  refine ⟨h.afterEdge (PortIn.request m b k), ?_, rfl, ?_⟩
  · rw [HostRun.request, Operand.value_lit, Operand.value_lit]
    exact HostRun.drive_eq_afterEdge h _
  · have haccepted := edge_of_accepts (s := h.machine) (p := PortIn.request m b k) ⟨rfl, rfl, hb⟩
    rwa [PortIn.request, Mode.ofBit_toBit] at haccepted

/-- Just after its acceptance an operation has done no round. -/
theorem State.accept_carries (s : State) (m : Mode) (b : Block) (k : Key) : (s.accept m b k).Carries m b k :=
  ⟨rfl, nofun, rfl⟩

/-- In `DONE` the block is the one after all 528 rounds. -/
theorem State.Carries.blk_of_done {s : State} {m : Mode} {b : Block} {k : Key} (hC : s.Carries m b k) (hI : s.Inv)
    (hd : s.phase = .done) : s.blk = (rounds m Config.rounds (b, k)).1 := by
  obtain ⟨-, -, hregs⟩ := hC
  obtain ⟨-, -, -, hdone⟩ := hI
  rw [hdone hd] at hregs
  exact congrArg Prod.fst hregs

theorem HostRun.read_of_done (r : String) (hd : h.machine.phase = .done) :
    h.read r = .ok { h with names := (r, h.machine.blk) :: h.names } := by
  rw [HostRun.read, State.blockOut_of_done _ hd]

/-- What `RUNENC` and `RUNDEC` expand to: accepted, carried through the `WAIT`, and read in `DONE`. -/
theorem HostRun.runCommand_binds_result (m : Mode) (b : Block) (k : Key) (r : String)
    (hwf : h.machine.config.wf = true) (hb : h.machine.phase ≠ .busy) :
    ∃ h', h.runCommand m (.lit b.toNat) (.lit k.toNat) r = .ok h' ∧
      h'.names = (r, (rounds m Config.rounds (b, k)).1) :: h.names ∧ h'.machine.phase = .done := by
  obtain ⟨h₁, hrequest, hnames, hmachine⟩ := HostRun.request_of_not_busy m b k hb
  have hI : h₁.machine.Inv := hmachine ▸ State.accept_inv hwf m b k
  have hC : h₁.machine.Carries m b k := hmachine ▸ State.accept_carries h.machine m b k
  obtain ⟨h₂, hwait, hc⟩ := HostRun.wait_completes hI (by rw [hmachine]; rfl)
  have hblk := (hc.carries m b k hC).blk_of_done hc.inv hc.phase
  refine ⟨{ h₂ with names := (r, h₂.machine.blk) :: h₂.names }, ?_, ?_, hc.phase⟩
  · simp only [HostRun.runCommand, hrequest, hwait, HostRun.read_of_done r hc.phase]
  · rw [hblk, hc.names, hnames]

/-- Settles O48. -/
theorem runStatementsBindTheResult : Obligations.RunStatementsBindTheResult :=
  fun _ b k r hwf hb =>
    ⟨HostRun.runCommand_binds_result .encrypt b k r hwf hb, HostRun.runCommand_binds_result .decrypt b k r hwf hb⟩

end Sys2Proof.Machine
end

section
/-! The datapath of one round (40_datapath.md R56 to R66): the taps of the two indices, the two round functions bit by
bit, and that each undoes the other. -/

namespace Sys2Proof.Machine

/-! ### The table and the taps -/

/-- Settles O5, entry by entry. -/
theorem nlfHasTheTruthTable : Obligations.NlfHasTheTruthTable := by
  unfold Obligations.NlfHasTheTruthTable
  decide

/-- The bits of an index that is put together from five taps. -/
theorem index_bits_of_taps {b4 b3 b2 b1 b0 : Bool} {i : NlfIndex}
    (hi : i = BitVec.ofBool b4 ++ BitVec.ofBool b3 ++ BitVec.ofBool b2 ++ BitVec.ofBool b1 ++ BitVec.ofBool b0) :
    i[0] = b0 ∧ i[1] = b1 ∧ i[2] = b2 ∧ i[3] = b3 ∧ i[4] = b4 := by
  subst hi
  revert b4 b3 b2 b1 b0
  decide

/-- `y` is `x` shifted right by one bit, whatever came in at the top. -/
def ShiftedRight (x y : Block) : Prop :=
  ∀ i < 31, y.getLsbD i = x.getLsbD (i + 1)

theorem ShiftedRight.getElem_eq {x y : Block} (h : ShiftedRight x y) (i : Nat) (hi : i < 31) :
    y[i] = x[i + 1] := by
  rw [← BitVec.getLsbD_eq_getElem, ← BitVec.getLsbD_eq_getElem, h i hi]

/-- Each decrypt tap is the encrypt tap less one (R59). -/
theorem ShiftedRight.decIndex_eq {x y : Block} (h : ShiftedRight x y) : decIndex y = encIndex x := by
  simp [decIndex, encIndex, h.getElem_eq]

theorem shiftedRight_shiftLeft (x : Block) : ShiftedRight (x <<< 1) x := by
  intro i hi
  rw [BitVec.getLsbD_shiftLeft]
  simp [Nat.succ_lt_succ hi]

/-- Settles O6: a block is the right shift of its left shift, which gives the relation of the two tap lists. -/
theorem nlfIndexTaps : Obligations.NlfIndexTaps :=
  fun x => ⟨index_bits_of_taps (i := encIndex x) rfl, index_bits_of_taps (i := decIndex x) rfl,
    (shiftedRight_shiftLeft x).decIndex_eq⟩

/-! ### The two rounds, bit by bit -/

theorem encRound_shiftedRight (x : Block × Key) : ShiftedRight x.1 (encRound x).1 := by
  intro i hi
  rw [encRound_blk_bit x i (by omega), if_neg (by omega)]

theorem encRound_blk_top (x : Block × Key) : (encRound x).1[31] = encFeedback x.1 x.2 :=
  encRound_blk_bit x 31 (by decide)

theorem decRound_shiftedRight (x : Block × Key) : ShiftedRight (decRound x).1 x.1 := by
  intro i hi
  rw [decRound_blk_bit x (i + 1) (by omega), if_neg (by omega), Nat.add_sub_cancel]

theorem decRound_blk_bottom (x : Block × Key) : (decRound x).1[0] = decFeedback x.1 x.2 :=
  decRound_blk_bit x 0 (by decide)

theorem encRound_key_bit (x : Block × Key) (i : Nat) (hi : i < 63) :
    (encRound x).2.getLsbD i = x.2.getLsbD (i + 1) := by
  rw [encRound_key, rotateRight_bit _ _ _ (by omega), Nat.mod_eq_of_lt (by omega)]

theorem encRound_key_top (x : Block × Key) : (encRound x).2[63] = x.2[0] :=
  rotateRight_bit x.2 1 63 (by decide)

theorem decRound_key_bit (x : Block × Key) (i : Nat) (hi : i < 63) :
    (decRound x).2.getLsbD (i + 1) = x.2.getLsbD i := by
  rw [decRound_key, rotateLeft_bit _ _ _ (by omega)]
  congr 1
  omega

theorem decRound_key_bottom (x : Block × Key) : (decRound x).2[0] = x.2[63] :=
  rotateLeft_bit x.2 1 0 (by decide)

/-- Two blocks are equal when they agree in bit 31 and in each bit below it. -/
theorem block_eq_of_top {x y : Block} (htop : x[31] = y[31]) (h : ∀ i < 31, x.getLsbD i = y.getLsbD i) : x = y := by
  refine BitVec.eq_of_getLsbD_eq fun i hi => ?_
  obtain hlt | rfl : i < 31 ∨ i = 31 := by omega
  · exact h i hlt
  · exact htop

/-- Two blocks are equal when they agree in bit 0 and in each bit above it. -/
theorem block_eq_of_bottom {x y : Block} (hbot : x[0] = y[0]) (h : ∀ i < 31, x.getLsbD (i + 1) = y.getLsbD (i + 1)) :
    x = y := by
  refine BitVec.eq_of_getLsbD_eq fun i hi => ?_
  cases i with
  | zero => exact hbot
  | succ i => exact h i (by omega)

/-- The shift form of R61. -/
theorem encRound_blk_eq_shift (x : Block × Key) :
    (encRound x).1 = (x.1 >>> 1) ||| ((BitVec.ofBool (encFeedback x.1 x.2)).setWidth 32 <<< 31) := by
  refine block_eq_of_top ?_ fun i hi => ?_
  · rw [encRound_blk_top]
    simp
  · rw [encRound_shiftedRight x i hi]
    simp [hi, Nat.add_comm]

/-- The shift form of R63. -/
theorem decRound_blk_eq_shift (x : Block × Key) :
    (decRound x).1 = (x.1 <<< 1) ||| (BitVec.ofBool (decFeedback x.1 x.2)).setWidth 32 := by
  refine block_eq_of_bottom ?_ fun i hi => ?_
  · rw [decRound_blk_bottom]
    simp
  · rw [← decRound_shiftedRight x i hi]
    simp [Nat.succ_lt_succ hi, BitVec.getLsbD_eq_getElem (Nat.lt_succ_of_lt hi)]

/-- The corner cases of R61: the index is 0 or 31, and both entries of the NLF are 0. -/
theorem encFeedback_corner (k : Key) : encFeedback 0 k = k[0] ∧ encFeedback 0xFFFFFFFF k = k[0] := by
  have hzero : nlf (encIndex 0#32) = false := by decide
  have hones : nlf (encIndex 0xFFFFFFFF#32) = false := by decide
  simp [encFeedback, hzero, hones]

/-- The corner cases of R63, for the same two entries. -/
theorem decFeedback_corner (k : Key) : decFeedback 0 k = k[15] ∧ decFeedback 0xFFFFFFFF k = k[15] := by
  have hzero : nlf (decIndex 0#32) = false := by decide
  have hones : nlf (decIndex 0xFFFFFFFF#32) = false := by decide
  simp [decFeedback, hzero, hones]

/-- Settles O7: each clause is a lemma above, and the example is evaluated. -/
theorem encryptRoundIsTheRule : Obligations.EncryptRoundIsTheRule :=
  ⟨fun x k => ⟨encRound_shiftedRight (x, k), encRound_blk_top (x, k), encRound_blk_eq_shift (x, k),
    encRound_key_bit (x, k), encRound_key_top (x, k)⟩, encFeedback_corner, by decide, by decide⟩

/-- Settles O8, as O7 for the mirrored round. -/
theorem decryptRoundIsTheRule : Obligations.DecryptRoundIsTheRule :=
  ⟨fun x k => ⟨fun i hi => (decRound_shiftedRight (x, k) i hi).symm, decRound_blk_bottom (x, k),
    decRound_blk_eq_shift (x, k), decRound_key_bit (x, k), decRound_key_bottom (x, k)⟩,
    decFeedback_corner, by decide, by decide⟩

/-! ### The inverse laws (R65) -/

/-- `x` and its right shift `y` give both rounds the same index, and the keys the same key bit: so the encrypt feedback
of `x` is the bit that came in at the top exactly when the decrypt feedback of `y` is the bit that went out. -/
theorem ShiftedRight.feedback_eq_iff {x y : Block} (h : ShiftedRight x y) {k j : Key} (hk : k[0] = j[15]) :
    decFeedback y j = x[0] ↔ encFeedback x k = y[31] := by
  have htap : y[15] = x[16] := h.getElem_eq 15 (by decide)
  rw [decFeedback, encFeedback, h.decIndex_eq, htap, hk]
  cases x[0] <;> cases y[31] <;> simp

/-- A decrypt round undoes an encrypt round when it uses the key bit the encrypt round used. -/
theorem decRound_encRound_blk (x : Block) {k j : Key} (hk : k[0] = j[15]) :
    (decRound ((encRound (x, k)).1, j)).1 = x := by
  have hshift := encRound_shiftedRight (x, k)
  refine block_eq_of_bottom ?_ fun i hi => ?_
  · rw [decRound_blk_bottom]
    exact (hshift.feedback_eq_iff hk).mpr (encRound_blk_top (x, k)).symm
  · rw [← decRound_shiftedRight _ i hi]
    exact hshift i hi

/-- An encrypt round undoes a decrypt round when it uses the key bit the decrypt round used. -/
theorem encRound_decRound_blk (y : Block) {k j : Key} (hk : k[0] = j[15]) :
    (encRound ((decRound (y, j)).1, k)).1 = y := by
  have hshift := decRound_shiftedRight (y, j)
  refine block_eq_of_top ?_ fun i hi => ?_
  · rw [encRound_blk_top]
    exact (hshift.feedback_eq_iff hk).mp (decRound_blk_bottom (y, j)).symm
  · rw [encRound_shiftedRight _ i hi]
    exact (hshift i hi).symm

/-- Settles O9: the rotations by 16 bring the key bit that was used to its place in the mirrored round. -/
theorem roundsUndoEachOther : Obligations.RoundsUndoEachOther := by
  refine fun x k => ⟨decRound_encRound_blk x ?_, encRound_decRound_blk x ?_⟩
  · exact ((rotateLeft_bit _ 16 15 (by decide)).trans (encRound_key_top (x, k))).symm
  · exact (rotateRight_bit _ 16 0 (by decide)).trans (decRound_key_bit (x, k) 15 (by decide))

end Sys2Proof.Machine
end

section
/-! The key schedule (40_datapath.md R64): the key register after any number of rounds, and the one key bit a round
uses. -/

namespace Sys2Proof.Machine

theorem rotateRight_zero (k : Key) : k.rotateRight 0 = k := by
  refine BitVec.eq_of_getLsbD_eq fun i hi => ?_
  rw [rotateRight_bit _ _ _ hi, Nat.add_zero, Nat.mod_eq_of_lt hi]

theorem rotateLeft_zero (k : Key) : k.rotateLeft 0 = k := by
  refine BitVec.eq_of_getLsbD_eq fun i hi => ?_
  rw [rotateLeft_bit _ _ _ hi, Nat.mul_zero, Nat.add_zero, Nat.mod_eq_of_lt hi]

theorem rotateRight_succ (k : Key) (r : Nat) : k.rotateRight (r + 1) = (k.rotateRight r).rotateRight 1 := by
  refine BitVec.eq_of_getLsbD_eq fun i hi => ?_
  rw [rotateRight_bit _ _ _ hi, rotateRight_bit _ _ _ hi, rotateRight_bit _ _ _ (Nat.mod_lt _ (by decide))]
  congr 1
  omega

theorem rotateLeft_succ (k : Key) (r : Nat) : k.rotateLeft (r + 1) = (k.rotateLeft r).rotateLeft 1 := by
  refine BitVec.eq_of_getLsbD_eq fun i hi => ?_
  rw [rotateLeft_bit _ _ _ hi, rotateLeft_bit _ _ _ hi, rotateLeft_bit _ _ _ (Nat.mod_lt _ (by decide))]
  congr 1
  omega

theorem rounds_encrypt_key (r : Nat) (x : Block × Key) : (rounds .encrypt r x).2 = x.2.rotateRight r := by
  induction r with
  | zero => exact (rotateRight_zero x.2).symm
  | succ r ih => rw [rotateRight_succ, ← ih]; rfl

theorem rounds_decrypt_key (r : Nat) (x : Block × Key) : (rounds .decrypt r x).2 = x.2.rotateLeft r := by
  induction r with
  | zero => exact (rotateLeft_zero x.2).symm
  | succ r ih => rw [rotateLeft_succ, ← ih]; rfl

/-- The key bit of encrypt round `r`. -/
theorem rounds_encrypt_key_bit (r : Nat) (x : Block × Key) : (rounds .encrypt r x).2[0] = x.2.getLsbD (r % 64) := by
  rw [rounds_encrypt_key, ← BitVec.getLsbD_eq_getElem, rotateRight_bit _ _ _ (by decide), Nat.zero_add]

/-- The key bit of decrypt round `r`. -/
theorem rounds_decrypt_key_bit (r : Nat) (x : Block × Key) :
    (rounds .decrypt r x).2[15] = x.2.getLsbD ((15 + 63 * r) % 64) := by
  rw [rounds_decrypt_key, ← BitVec.getLsbD_eq_getElem, rotateLeft_bit _ _ _ (by decide)]

/-- No key bit but bit 0 enters an encrypt round's block. -/
theorem encRound_blk_congr (x : Block) {k k' : Key} (h : k[0] = k'[0]) :
    (encRound (x, k)).1 = (encRound (x, k')).1 := by
  simp [encRound, encFeedback, h]

/-- No key bit but bit 15 enters a decrypt round's block. -/
theorem decRound_blk_congr (x : Block) {k k' : Key} (h : k[15] = k'[15]) :
    (decRound (x, k)).1 = (decRound (x, k')).1 := by
  simp [decRound, decFeedback, h]

/-- Settles O10: bit 0 and bit 15 of the rotated key are the two key bits. -/
theorem keySchedule : Obligations.KeySchedule :=
  ⟨fun r x k => ⟨rounds_encrypt_key r (x, k), rounds_encrypt_key_bit r (x, k), rounds_decrypt_key r (x, k),
    rounds_decrypt_key_bit r (x, k)⟩, fun x _ _ => encRound_blk_congr x, fun x _ _ => decRound_blk_congr x⟩

end Sys2Proof.Machine
end

section
/-! Unrolling (40_datapath.md R66): `n` round steps of U rounds perform `n * U` rounds, so only the product counts. -/

namespace Sys2Proof.Machine

/-- The registers after `n` round steps: `n * U` rounds, and a count of as many more. -/
theorem State.roundStep_iterate (s : State) (n : Nat) :
    let t := State.roundStep^[n] s
    t.mode = s.mode ∧ t.config = s.config ∧
    (t.blk, t.key) = rounds s.mode (n * s.config.roundsPerCycle) (s.blk, s.key) ∧
    t.cnt = s.cnt + BitVec.ofNat 10 (n * s.config.roundsPerCycle) := by
  induction n with
  | zero => simp
  | succ n ih =>
    obtain ⟨hmode, hconfig, hregs, hcnt⟩ := ih
    simp only [Function.iterate_succ_apply']
    refine ⟨hmode, hconfig, ?_, ?_⟩
    · rw [State.roundStep_blk, State.roundStep_key, Prod.mk.eta, hmode, hconfig, hregs, ← rounds_add, Nat.succ_mul]
    · rw [State.roundStep_cnt, State.nextCount, hconfig, hcnt, Nat.succ_mul, BitVec.ofNat_add, BitVec.add_assoc]

theorem State.roundStep_iterate_blk (s : State) (n : Nat) :
    (State.roundStep^[n] s).blk = (rounds s.mode (n * s.config.roundsPerCycle) (s.blk, s.key)).1 := by
  obtain ⟨-, -, hregs, -⟩ := s.roundStep_iterate n
  rw [← hregs]

theorem State.roundStep_iterate_key (s : State) (n : Nat) :
    (State.roundStep^[n] s).key = (rounds s.mode (n * s.config.roundsPerCycle) (s.blk, s.key)).2 := by
  obtain ⟨-, -, hregs, -⟩ := s.roundStep_iterate n
  rw [← hregs]

theorem State.roundStep_iterate_cnt (s : State) (n : Nat) :
    (State.roundStep^[n] s).cnt = s.cnt + BitVec.ofNat 10 (n * s.config.roundsPerCycle) := by
  obtain ⟨-, -, -, hcnt⟩ := s.roundStep_iterate n
  exact hcnt

/-- Settles O23: both sides perform `u` rounds, or all 528. -/
theorem unrollingDoesNotChangeRounds : Obligations.UnrollingDoesNotChangeRounds := by
  refine ⟨fun s u => ?_, fun s u hu => ?_⟩
  · rw [State.roundStep_iterate_blk, State.roundStep_iterate_key, State.roundStep_iterate_cnt, Nat.mul_one]
    rfl
  · rw [State.roundStep_iterate_blk, State.roundStep_iterate_blk, Nat.div_mul_cancel hu, Nat.mul_one]

end Sys2Proof.Machine
end

section
/-! A whole operation (10_state.md R29, 41_cipher_operations.md R78, R80): from its acceptance each edge without a reset
performs U of its rounds, until all 528 are done. -/

namespace Sys2Proof.Machine

variable {s s' : State} {m : Mode} {b : Block} {k : Key} {p : PortIn} {ps : List PortIn}

/-- The reachable state `s` is that of the operation on `(b, k)` after `n` of its rounds. -/
structure State.CarriesAt (s : State) (m : Mode) (b : Block) (k : Key) (n : Nat) : Prop where
  inv : s.Inv
  carries : s.Carries m b k
  cnt : s.cnt.toNat = n

/-- An operation with rounds left is in flight. -/
theorem State.CarriesAt.busy {n : Nat} (h : s.CarriesAt m b k n) (hn : n < 528) : s.phase = .busy := by
  obtain ⟨⟨-, -, -, hdone⟩, ⟨-, hidle, -⟩, hcnt⟩ := h
  cases hp : s.phase with
  | idle => exact absurd hp hidle
  | busy => rfl
  | done => have := hdone hp; omega

/-- An operation with all rounds done has completed. -/
theorem State.CarriesAt.done (h : s.CarriesAt m b k 528) : s.phase = .done := by
  obtain ⟨⟨-, -, hbusy, -⟩, ⟨-, hidle, -⟩, hcnt⟩ := h
  cases hp : s.phase with
  | idle => exact absurd hp hidle
  | busy => have := (hbusy hp).2; omega
  | done => rfl

theorem State.CarriesAt.roundStep {n : Nat} (h : s.CarriesAt m b k n) (hn : n < 528) :
    s.roundStep.CarriesAt m b k (n + s.config.roundsPerCycle) where
  inv := h.inv.roundStep (h.busy hn)
  carries := h.carries.roundStep h.inv (h.busy hn)
  cnt := h.cnt ▸ (h.inv.nextCount_toNat (h.busy hn)).1

theorem State.accept_carriesAt (hwf : s.config.wf = true) (m : Mode) (b : Block) (k : Key) :
    (s.accept m b k).CarriesAt m b k 0 :=
  ⟨State.accept_inv hwf m b k, s.accept_carries m b k, rfl⟩

/-- The outputs at the end of an operation are a function of its direction and operands. -/
theorem State.CarriesAt.outputs_eq (h : s.CarriesAt m b k 528) (h' : s'.CarriesAt m b k 528) :
    s.outputs = s'.outputs :=
  outputsHideTheRest s s' (h.done.trans h'.done.symm) fun _ =>
    (h.carries.blk_of_done h.inv h.done).trans (h'.carries.blk_of_done h'.inv h'.done).symm

/-- Edges without a reset carry an operation on by U rounds each, as long as it has that many left. -/
theorem State.CarriesAt.after_edges (j : Nat) {n : Nat} (h : s.CarriesAt m b k n)
    (hn : n + j * s.config.roundsPerCycle ≤ 528) (hlen : j ≤ s.inputs.length)
    (hr : ∀ q ∈ s.inputs.take j, q.rst = false) :
    ∃ t : State, runEdges j s = .next t ∧ t.CarriesAt m b k (n + j * s.config.roundsPerCycle) := by
  induction j generalizing s n with
  | zero => exact ⟨s, rfl, by simpa using h⟩
  | succ j ih =>
    cases hin : s.inputs with
    | nil => simp [hin] at hlen
    | cons p ps =>
      simp only [hin, List.length_cons, List.take_succ_cons, List.forall_mem_cons] at hlen hr
      obtain ⟨hp, hps⟩ := hr
      have hU : 0 < s.config.roundsPerCycle := Nat.pos_of_dvd_of_pos ((config_wf_iff _).mp h.inv.1) (by decide)
      rw [Nat.succ_mul, Nat.add_comm (j * _), ← Nat.add_assoc] at hn ⊢
      have hlt : n < 528 := by omega
      have hnext : { s with inputs := ps }.CarriesAt m b k n := ⟨h.inv, h.carries, h.cnt⟩
      rw [runEdges_cons j s p ps hin, edge_of_busy hp (hnext.busy hlt)]
      exact ih (hnext.roundStep hlt) hn (Nat.le_of_succ_le_succ hlen) hps

/-- An accepted command, and `j` later edges without a reset: `j * U` of its rounds are done. -/
theorem runEdges_of_accepts (ha : s.Accepts p) (hwf : s.config.wf = true) (hin : s.inputs = p :: ps) (j : Nat)
    (hj : j * s.config.roundsPerCycle ≤ 528) (hlen : j ≤ ps.length) (hr : ∀ q ∈ ps.take j, q.rst = false) :
    ∃ t : State, runEdges (1 + j) s = .next t ∧
      t.CarriesAt (Mode.ofBit p.mode) p.blockIn p.keyIn (j * s.config.roundsPerCycle) := by
  have hstart := State.accept_carriesAt (s := { s with inputs := ps }) hwf (Mode.ofBit p.mode) p.blockIn p.keyIn
  rw [Nat.add_comm, runEdges_cons j s p ps hin, edge_of_accepts (s := { s with inputs := ps }) ha]
  simpa using hstart.after_edges j (by simpa using hj) hlen hr

/-- With no reset at the `528 / U` edges after its acceptance, a command has done all its rounds. -/
theorem runEdges_of_accepts_completes (ha : s.Accepts p) (hwf : s.config.wf = true) (hin : s.inputs = p :: ps)
    (hlen : 528 / s.config.roundsPerCycle ≤ ps.length)
    (hr : ∀ q ∈ ps.take (528 / s.config.roundsPerCycle), q.rst = false) :
    ∃ t : State, runEdges (1 + 528 / s.config.roundsPerCycle) s = .next t ∧
      t.CarriesAt (Mode.ofBit p.mode) p.blockIn p.keyIn 528 := by
  have hall := Nat.div_mul_cancel ((config_wf_iff _).mp hwf)
  obtain ⟨t, hrun, ht⟩ := runEdges_of_accepts ha hwf hin _ hall.le hlen hr
  exact ⟨t, hrun, hall ▸ ht⟩

/-- Settles O41: both runs end with all 528 rounds of the same operation done. -/
theorem resultDependsOnlyOnTheCommand : Obligations.ResultDependsOnlyOnTheCommand := by
  intro s s' p ps ps' hwf hwf' ha ha' hin hin' hlen hlen' hr
  obtain ⟨hps, hps'⟩ := List.forall_mem_append.mp hr
  obtain ⟨t, hrun, ht⟩ :=
    runEdges_of_accepts_completes ha hwf hin hlen.ge fun q hq => hps q (List.mem_of_mem_take hq)
  obtain ⟨t', hrun', ht'⟩ :=
    runEdges_of_accepts_completes ha' hwf' hin' hlen'.ge fun q hq => hps' q (List.mem_of_mem_take hq)
  exact ⟨t, t', hrun, hrun', t.done_iff.mpr ht.done, t'.done_iff.mpr ht'.done, ht.outputs_eq ht'⟩

end Sys2Proof.Machine
end

section
/-! No step tests a data value (41_cipher_operations.md R73): which branch an edge takes, and what it does to `PHASE`
and `CNT`, is a function of the control part of the state and of `rst` and `start`. -/

namespace Sys2Proof.Machine

variable {s s' : State} {p p' : PortIn}

/-- The inputs that are no operand. -/
def PortIn.control (p : PortIn) : Bool × Bool :=
  (p.rst, p.start)

/-- Equal in all that decides when something happens, under inputs that are too; the data may differ. -/
structure State.SameControl (s s' : State) : Prop where
  phase : s.phase = s'.phase
  cnt : s.cnt = s'.cnt
  config : s.config = s'.config
  inputs : s.inputs.map PortIn.control = s'.inputs.map PortIn.control

theorem State.sampled_control (s : State) :
    s.sampled.control = (s.inputs.map PortIn.control).headD PortIn.nop.control := by
  unfold State.sampled
  cases s.inputs <;> rfl

theorem State.SameControl.sampled_control_eq (h : s.SameControl s') : s.sampled.control = s'.sampled.control := by
  rw [State.sampled_control, State.sampled_control, h.inputs]

theorem State.SameControl.advanceInputs (h : s.SameControl s') : s.advanceInputs.SameControl s'.advanceInputs where
  phase := h.phase
  cnt := h.cnt
  config := h.config
  inputs := by rw [State.advanceInputs_inputs, State.advanceInputs_inputs, List.map_tail, List.map_tail, h.inputs]

theorem State.SameControl.roundStep (h : s.SameControl s') : s.roundStep.SameControl s'.roundStep := by
  have hnext : s.nextCount = s'.nextCount := by rw [State.nextCount, State.nextCount, h.cnt, h.config]
  exact ⟨by rw [State.roundStep_phase, State.roundStep_phase, hnext, h.phase], hnext, h.config, h.inputs⟩

/-- Under inputs with the same control the two states take the same branch of the edge. -/
theorem State.SameControl.edge (h : s.SameControl s') (hp : p.control = p'.control) :
    (edge p s).SameControl (edge p' s') := by
  obtain ⟨hrst, hstart⟩ := Prod.mk.inj hp
  obtain ⟨hr, he⟩ | ⟨hr, hs, hb, he⟩ | ⟨hr, hb, he⟩ | ⟨hr, hs, hb, he⟩ := edge_cases p s <;> rw [he]
  · rw [edge_of_rst (hrst ▸ hr)]
    exact ⟨rfl, rfl, h.config, h.inputs⟩
  · rw [edge_of_accepts ⟨hrst ▸ hr, hstart ▸ hs, h.phase ▸ hb⟩]
    exact ⟨rfl, rfl, h.config, h.inputs⟩
  · rw [edge_of_busy (hrst ▸ hr) (h.phase ▸ hb)]
    exact h.roundStep
  · rw [edge_of_quiet (hrst ▸ hr) (hstart ▸ hs) (h.phase ▸ hb)]
    exact h

/-- Settles O43: every edge keeps the relation, and `busy` and `done` are functions of the phase. -/
theorem timingDoesNotDependOnData : Obligations.TimingDoesNotDependOnData := by
  intro n s s' _ hphase hcnt hconfig hinputs
  obtain ⟨t, t', hrun, hrun', ht⟩ := runEdges_keeps_rel (R := State.SameControl)
    (fun _ _ hu => hu.advanceInputs.edge hu.sampled_control_eq) n ⟨hphase, hcnt, hconfig, hinputs⟩
  exact ⟨t, t', hrun, hrun', ht.phase, ht.cnt, by rw [State.busy, State.busy, ht.phase],
    by rw [State.done, State.done, ht.phase]⟩

end Sys2Proof.Machine
end

section
/-! The step as the register transfer of 41_cipher_operations.md R71 and R72. -/

namespace Sys2Proof.Machine

/-- `n` rounds are the `n`-th iterate of the round function (00_scope.md R12). -/
theorem rounds_eq_iterate (m : Mode) (n : Nat) (x : Block × Key) : rounds m n x = (roundOf m)^[n] x := by
  induction n with
  | zero => rfl
  | succ n ih => rw [rounds_succ, ih, Function.iterate_succ_apply']

/-- The round function, selected as R71 does. -/
theorem roundOf_eq_ite (m : Mode) : roundOf m = if m = .encrypt then encRound else decRound := by
  cases m <;> rfl

/-- Settles O15, branch by branch. -/
theorem stepIsTheRegisterTransfer : Obligations.StepIsTheRegisterTransfer := by
  intro s p ps hin
  have hstep := step_cons s p ps hin
  refine ⟨_, hstep, edge_config _ _, edge_inputs _ _, ?_⟩
  obtain ⟨hr, he⟩ | ⟨⟨hr, hs, hb⟩, he⟩ | ⟨hr, hb, he⟩ | ⟨hr, hs, hb, he⟩ := step_next_cases hin hstep <;> rw [he]
  · rw [if_pos hr]
    exact ⟨rfl, rfl⟩
  · rw [if_neg (by simp [hr]), if_pos ⟨hs, hb⟩]
    exact ⟨rfl, rfl, rfl, rfl, rfl, rfl⟩
  · rw [if_neg (by simp [hr]), if_neg (fun ha => ha.2 hb), if_pos hb]
    refine ⟨?_, rfl, rfl, ?_, rfl⟩
    · rw [← roundOf_eq_ite, ← rounds_eq_iterate]
      rfl
    · rw [State.roundStep_phase, hb]
      rfl
  · rw [if_neg (by simp [hr]), if_neg (by simp [hs]), if_neg hb]

/-- Settles O24: the edge is a round step. -/
theorem counterNeverWraps : Obligations.CounterNeverWraps := by
  intro s t p ps hI hb hin hr hstep
  rw [step_cons s p ps hin, edge_of_busy (s := { s with inputs := ps }) hr hb] at hstep
  cases hstep
  obtain ⟨hsum, hle⟩ := hI.nextCount_toNat hb
  refine ⟨hsum, hle, ?_⟩
  rw [State.roundStep_cnt, ← nextCount_eq_rounds_iff]
  obtain ⟨hc, hp⟩ | ⟨hc, hp⟩ := State.roundStep_phase_of_busy (s := { s with inputs := ps }) hb
  · exact iff_of_true hp hc
  · exact iff_of_false (by rw [hp]; decide) hc

end Sys2Proof.Machine
end

section
/-! The functions of the two commands (41_cipher_operations.md R69, R70, R82). -/

namespace Sys2Proof.Machine

/-- Settles O11. -/
theorem cipherIsIteratedRounds : Obligations.CipherIsIteratedRounds :=
  fun b k => ⟨congrArg Prod.fst (rounds_eq_iterate .encrypt 528 (b, k)),
    congrArg Prod.fst (rounds_eq_iterate .decrypt 528 (b, k))⟩

/-- What one round leaves as it is, any number of rounds does. -/
theorem rounds_of_fixed {m : Mode} {x : Block × Key} (h : roundOf m x = x) (n : Nat) : rounds m n x = x := by
  rw [rounds_eq_iterate, Function.iterate_fixed h]

theorem rounds_zeros (m : Mode) (n : Nat) : rounds m n (0, 0) = (0, 0) :=
  rounds_of_fixed (by cases m <;> decide) n

theorem rounds_ones (m : Mode) (n : Nat) :
    rounds m n (0xFFFFFFFF, 0xFFFFFFFFFFFFFFFF) = (0xFFFFFFFF, 0xFFFFFFFFFFFFFFFF) :=
  rounds_of_fixed (by cases m <;> decide) n

/-- Settles O12: both boundary states are fixed points of one round. -/
theorem boundaryBlocksAreFixedPoints : Obligations.BoundaryBlocksAreFixedPoints :=
  ⟨fun m n => ⟨rounds_zeros m n, rounds_ones m n⟩,
    congrArg Prod.fst (rounds_zeros .encrypt _), congrArg Prod.fst (rounds_zeros .decrypt _),
    congrArg Prod.fst (rounds_ones .encrypt _), congrArg Prod.fst (rounds_ones .decrypt _),
    by decide, by decide⟩

end Sys2Proof.Machine
end

section
/-! The rounds of one direction undo those of the other in reverse order (41_cipher_operations.md R76, R77): 528 rounds
from the same key, not a rotated one, because the two rounds that mirror each other use the same key bit. -/

namespace Sys2Proof

/-- The direction that undoes a direction. -/
def Mode.inverse : Mode → Mode
  | .encrypt => .decrypt
  | .decrypt => .encrypt

namespace Machine

/-- The one bit of the key register a round of a direction uses (40_datapath.md R64). -/
def usedKeyBit : Mode → Key → Bool
  | .encrypt, k => k[0]
  | .decrypt, k => k[15]

/-- A round undoes a round of the other direction when both use the same key bit. -/
theorem roundOf_inverse_roundOf_blk (m : Mode) (x : Block) {k j : Key} (hk : usedKeyBit m k = usedKeyBit m.inverse j) :
    (roundOf m.inverse ((roundOf m (x, k)).1, j)).1 = x := by
  cases m with
  | encrypt => exact decRound_encRound_blk x hk
  | decrypt => exact encRound_decRound_blk x hk.symm

/-- Round `527 - s` of a direction and round `s` of the other use the same bit of the command's key: 527 is 15
modulo 64. -/
theorem usedKeyBit_mirrored (m : Mode) (x y : Block) (k : Key) {s : Nat} (hs : s < 528) :
    usedKeyBit m (rounds m (527 - s) (x, k)).2 = usedKeyBit m.inverse (rounds m.inverse s (y, k)).2 := by
  cases m with
  | encrypt =>
    have hbit : (527 - s) % 64 = (15 + 63 * s) % 64 := by omega
    calc (rounds .encrypt (527 - s) (x, k)).2[0]
        = k.getLsbD ((15 + 63 * s) % 64) := hbit ▸ rounds_encrypt_key_bit (527 - s) (x, k)
      _ = (rounds .decrypt s (y, k)).2[15] := (rounds_decrypt_key_bit s (y, k)).symm
  | decrypt =>
    have hbit : (15 + 63 * (527 - s)) % 64 = s % 64 := by omega
    calc (rounds .decrypt (527 - s) (x, k)).2[15]
        = k.getLsbD (s % 64) := hbit ▸ rounds_decrypt_key_bit (527 - s) (x, k)
      _ = (rounds .encrypt s (y, k)).2[0] := (rounds_encrypt_key_bit s (y, k)).symm

/-- After `s` rounds back, the block is the one after `528 - s` rounds forth. -/
theorem rounds_inverse_blk (m : Mode) (b : Block) (k : Key) (s : Nat) (hs : s ≤ 528) :
    (rounds m.inverse s ((rounds m 528 (b, k)).1, k)).1 = (rounds m (528 - s) (b, k)).1 := by
  induction s with
  | zero => rfl
  | succ s ih =>
    have hforth : 528 - s = 527 - s + 1 := by omega
    have hback := ih (Nat.le_of_succ_le hs)
    rw [hforth, rounds_succ m (527 - s)] at hback
    rw [rounds_succ, ← Prod.mk.eta (p := rounds m.inverse s _), hback, Nat.succ_sub_succ]
    exact roundOf_inverse_roundOf_blk m _ (usedKeyBit_mirrored m b _ k hs)

/-- Settles O13. -/
theorem decryptRoundsMirrorEncryptRounds : Obligations.DecryptRoundsMirrorEncryptRounds := by
  refine fun b k => ⟨fun s hs => ?_, fun s hs => ⟨?_, by omega⟩⟩
  · exact Prod.ext (rounds_inverse_blk .encrypt b k s hs) (rounds_decrypt_key s _)
  · exact (usedKeyBit_mirrored .encrypt b _ k hs).symm

theorem decryptBlock_encryptBlock (b : Block) (k : Key) : decryptBlock (encryptBlock b k) k = b :=
  rounds_inverse_blk .encrypt b k 528 le_rfl

theorem encryptBlock_decryptBlock (b : Block) (k : Key) : encryptBlock (decryptBlock b k) k = b :=
  rounds_inverse_blk .decrypt b k 528 le_rfl

end Machine

end Sys2Proof
end

section
/-! An accepted command at the cycle level (41_cipher_operations.md R74, R77, R80, R81): what it leaves in the registers
and at the outputs, in flight, at its end and after it. -/

namespace Sys2Proof.Machine

variable {s t : State} {m : Mode} {b : Block} {k : Key} {p : PortIn} {ps : List PortIn}

/-! ### What a run leaves of the parameter and the inputs -/

theorem runEdges_config {n : Nat} (hrun : runEdges n s = .next t) : t.config = s.config := by
  induction n generalizing s with
  | zero => cases hrun; rfl
  | succ n ih =>
    rw [runEdges_succ] at hrun
    rw [ih hrun, edge_config, State.advanceInputs_config]

/-- Each edge uses up one input vector. -/
theorem runEdges_inputs {n : Nat} (hrun : runEdges n s = .next t) : t.inputs = s.inputs.drop n := by
  induction n generalizing s with
  | zero => cases hrun; rfl
  | succ n ih =>
    rw [runEdges_succ] at hrun
    rw [ih hrun, edge_inputs, State.advanceInputs_inputs, List.drop_tail]

/-! ### In flight -/

theorem State.CarriesAt.regs {n : Nat} (h : s.CarriesAt m b k n) : (s.blk, s.key) = rounds m n (b, k) := by
  obtain ⟨-, ⟨-, -, hregs⟩, rfl⟩ := h
  exact hregs

/-- Settles O39: with `j * U` rounds done and some left, the operation is in flight. -/
theorem operationInFlight : Obligations.OperationInFlight := by
  intro s p ps j hwf ha hin hj hlen hr
  have hU := (config_wf_iff _).mp hwf
  have hlt : j * s.config.roundsPerCycle < 528 :=
    (Nat.lt_div_iff_mul_lt_of_dvd (ne_zero_of_dvd_ne_zero (by decide) hU) hU).mp hj
  obtain ⟨t, hrun, ht⟩ := runEdges_of_accepts ha hwf hin j hlt.le hlen hr
  exact ⟨t, hrun, ht.busy hlt, ht.cnt, ht.regs⟩

/-! ### At the end -/

/-- The cipher's function for a direction, from its mode bit. -/
theorem rounds_ofBit_blk (bit : BitVec 1) (b : Block) (k : Key) :
    (rounds (Mode.ofBit bit) Config.rounds (b, k)).1 = if bit = 0 then encryptBlock b k else decryptBlock b k := by
  unfold Mode.ofBit
  split <;> rfl

theorem State.CarriesAt.blockOut (h : s.CarriesAt m b k 528) :
    s.blockOut = some (rounds m Config.rounds (b, k)).1 := by
  rw [State.blockOut_of_done s h.done, h.carries.blk_of_done h.inv h.done]

/-- Settles O40: in flight before each of the edges, and completed after the last. -/
theorem acceptedCommandEndsWithTheCipherResult : Obligations.AcceptedCommandEndsWithTheCipherResult := by
  intro s p ps hwf ha hin hlen hr
  refine ⟨fun j hj => ?_, ?_⟩
  · obtain ⟨u, hrun, hb, -, -⟩ := operationInFlight s p ps j hwf ha hin hj (hj.le.trans hlen)
      fun q hq => hr q (List.take_subset_take_left ps hj.le hq)
    exact ⟨u, hrun, hb⟩
  · obtain ⟨t, hrun, ht⟩ := runEdges_of_accepts_completes ha hwf hin hlen hr
    exact ⟨t, hrun, ht.done, rounds_ofBit_blk p.mode _ _ ▸ ht.blockOut⟩

/-- 528 is 16 modulo 64. -/
theorem State.CarriesAt.key_encrypt (h : s.CarriesAt .encrypt b k 528) : s.key = k.rotateRight 16 :=
  calc s.key = (rounds .encrypt 528 (b, k)).2 := congrArg Prod.snd h.regs
    _ = k.rotateRight 528 := rounds_encrypt_key 528 (b, k)
    _ = k.rotateRight 16 := BitVec.rotateRight_mod_eq_rotateRight.symm

theorem State.CarriesAt.key_decrypt (h : s.CarriesAt .decrypt b k 528) : s.key = k.rotateLeft 16 :=
  calc s.key = (rounds .decrypt 528 (b, k)).2 := congrArg Prod.snd h.regs
    _ = k.rotateLeft 528 := rounds_decrypt_key 528 (b, k)
    _ = k.rotateLeft 16 := BitVec.rotateLeft_mod_eq_rotateLeft.symm

/-- `MODE` and `KEY` at the end of an operation, from its mode bit. -/
theorem State.CarriesAt.mode_key {bit : BitVec 1} (h : s.CarriesAt (Mode.ofBit bit) b k 528) :
    (bit = 0 → s.mode = .encrypt ∧ s.key = k.rotateRight 16) ∧
    (bit = 1 → s.mode = .decrypt ∧ s.key = k.rotateLeft 16) := by
  obtain ⟨hmode, -, -⟩ := h.carries
  refine ⟨?_, ?_⟩ <;> rintro rfl
  · exact ⟨hmode, h.key_encrypt⟩
  · exact ⟨hmode, h.key_decrypt⟩

/-- Settles O42: the operation completes, and the quiet edges after it hold the state. -/
theorem keyRegisterAtCompletion : Obligations.KeyRegisterAtCompletion := by
  refine ⟨fun n s p ps hwf ha hin hlen hr hquiet => ?_, by decide, by decide⟩
  obtain ⟨t, hrun, ht⟩ := runEdges_of_accepts_completes ha hwf hin (Nat.le_of_add_right_le hlen) hr
  have hrest : t.inputs = ps.drop (528 / s.config.roundsPerCycle) := by
    rw [runEdges_inputs hrun, hin, Nat.add_comm, List.drop_succ_cons]
  have hheld : runEdges n t = .next { t with inputs := t.inputs.drop n } := by
    refine stateIsHeldWhileQuiet n t (by simp [ht.done]) ?_ (hrest ▸ hquiet)
    rw [hrest, List.length_drop]
    omega
  exact ⟨_, (runEdges_add _ n s t hrun).trans hheld, ht.done, BitVec.eq_of_toNat_eq ht.cnt, ht.mode_key⟩

/-! ### A command and then its inverse -/

/-- A requested command that completes, from its direction and operands. -/
theorem runEdges_of_request_completes {qs : List PortIn} (hwf : s.config.wf = true) (hb : s.phase ≠ .busy)
    (hin : s.inputs = PortIn.request m b k :: ps ++ qs) (hlen : ps.length = 528 / s.config.roundsPerCycle)
    (hr : ∀ q ∈ ps, q.rst = false) :
    ∃ t : State, runEdges (1 + 528 / s.config.roundsPerCycle) s = .next t ∧ t.CarriesAt m b k 528 ∧
      t.config = s.config ∧ t.inputs = qs := by
  obtain ⟨t, hrun, ht⟩ := runEdges_of_accepts_completes (p := PortIn.request m b k) (ps := ps ++ qs) ⟨rfl, rfl, hb⟩ hwf
    hin (by simp [hlen]) (by rwa [List.take_left' hlen])
  have hrest : t.inputs = qs := by
    rw [runEdges_inputs hrun, hin, Nat.add_comm, List.cons_append, List.drop_succ_cons, List.drop_left' hlen]
  rw [PortIn.request, Mode.ofBit_toBit] at ht
  exact ⟨t, hrun, ht, runEdges_config hrun, hrest⟩

/-- Settles O14: the second command decrypts what the first one left in `block_out`. -/
theorem encryptThenDecryptIsIdentity : Obligations.EncryptThenDecryptIsIdentity := by
  refine ⟨fun b k => ⟨decryptBlock_encryptBlock b k, encryptBlock_decryptBlock b k⟩, ?_⟩
  intro s b c k ps qs hwf hb hin hlen hlen' hr
  obtain ⟨hps, hqs⟩ := List.forall_mem_append.mp hr
  obtain ⟨t, hrun, ht, hconfig, hrest⟩ := runEdges_of_request_completes hwf hb hin hlen hps
  refine ⟨t, hrun, fun hc => ?_⟩
  obtain rfl : encryptBlock b k = c := Option.some.inj (ht.blockOut.symm.trans hc)
  rw [← hconfig] at hwf hlen' ⊢
  obtain ⟨u, hrun', hu, -, -⟩ := runEdges_of_request_completes (qs := []) hwf (by simp [ht.done])
    (hrest.trans (List.append_nil _).symm) hlen' hqs
  exact ⟨u, hrun', hu.blockOut.trans (congrArg some (decryptBlock_encryptBlock b k))⟩

end Sys2Proof.Machine
end

section
/-! No outcome but a next state (60_exceptions.md R83). -/

namespace Sys2Proof.Machine

/-- Whatever its fields and the phase, a command answers the state its request gives. -/
theorem exec_eq_next (i : Instr) (s : State) : ∃ t : State, exec i s = .next t := by
  obtain ⟨m, b, k, rfl⟩ := exists_eq_ofFields i
  exact ⟨s.requestEdge m b k, exec_ofFields m b k s⟩

/-- Settles O22: a command answers its request's state, and a step the state after its edge. -/
theorem nothingEverStops : Obligations.NothingEverStops :=
  ⟨exec_eq_next, fun s => ⟨edge s.sampled s.advanceInputs, step_eq s⟩⟩

end Sys2Proof.Machine
end

section
/-! Inputs that an edge does not sample (70_reset_and_hazards.md R103). -/

namespace Sys2Proof.Machine

/-- A reset edge and one in `BUSY` read neither `start` nor the operands, and without `start` no operand is read. -/
theorem edge_eq_of_unsampled {s : State} {p q : PortIn} (hr : p.rst = q.rst)
    (h : p.rst = true ∨ s.phase = .busy ∨ (p.start = false ∧ q.start = false)) : edge p s = edge q s := by
  cases hp : p.rst with
  | true => rw [edge_of_rst hp, edge_of_rst (hr ▸ hp)]
  | false =>
    by_cases hb : s.phase = .busy
    · rw [edge_of_busy hp hb, edge_of_busy (hr ▸ hp) hb]
    · obtain ⟨hs, hs'⟩ : p.start = false ∧ q.start = false := by simpa [hp, hb] using h
      rw [edge_of_quiet hp hs hb, edge_of_quiet (hr ▸ hp) hs' hb]

/-- Settles O20: the two steps are edges of one state, with inputs that differ only where they are not read. -/
theorem unsampledInputsHaveNoEffect : Obligations.UnsampledInputsHaveNoEffect := by
  intro s p q ps hr h
  rw [step_cons { s with inputs := p :: ps } p ps rfl, step_cons { s with inputs := q :: ps } q ps rfl]
  exact congrArg Host.Outcome.next (edge_eq_of_unsampled (s := { s with inputs := ps }) hr h)

end Sys2Proof.Machine
end

section
/-! Reset (70_reset_and_hazards.md R95, R96): the outputs of `IDLE`, and runs that reset. -/

namespace Sys2Proof.Machine

/-- In `IDLE` no operation and no result is shown. -/
theorem State.status_of_idle {s : State} (h : s.phase = .idle) :
    s.busy = false ∧ s.done = false ∧ s.blockOut = none :=
  ⟨by simp [State.busy, h], by simp [State.done, h], s.blockOut_of_not_done (by simp [h])⟩

/-- Whatever `n` edges have done, a reset at the next one leaves `IDLE` and `CNT = 0`. -/
theorem runEdges_succ_of_rst {s : State} {p : PortIn} {ps : List PortIn} {n : Nat} (hin : s.inputs.drop n = p :: ps)
    (hr : p.rst = true) : ∃ t : State, runEdges (n + 1) s = .next t ∧ t.phase = .idle ∧ t.cnt = 0 := by
  obtain ⟨u, hrun, -⟩ := runEdges_keeps (P := fun _ => True) (fun _ _ => trivial) n (s := s) trivial
  refine ⟨{ u with inputs := ps }.resetEdge, ?_, rfl, rfl⟩
  rw [runEdges_add n 1 s u hrun, runEdges_cons 0 u p ps ((runEdges_inputs hrun).trans hin), edge_of_rst hr,
    runEdges_zero]

/-- Settles O32: the last of the reset edges decides. -/
theorem resetEdgesGiveIdle : Obligations.ResetEdgesGiveIdle := by
  intro n s hlen hr
  have hlast : s.inputs[n].rst = true := hr _ (List.mem_take_iff_getElem.mpr ⟨n, by omega, rfl⟩)
  obtain ⟨t, hrun, hidle, hcnt⟩ := runEdges_succ_of_rst (List.drop_eq_getElem_cons hlen) hlast
  obtain ⟨hbusy, hdone, hout⟩ := State.status_of_idle hidle
  exact ⟨t, hrun, hidle, hcnt, hbusy, hdone, hout, rfl, runEdges_config hrun, runEdges_inputs hrun⟩

/-- Settles O33: the reset edge leaves `IDLE`, and the quiet edges after it hold the state. -/
theorem resetAbandonsTheOperation : Obligations.ResetAbandonsTheOperation := by
  intro n s p ps _ hin hr hlen hquiet
  have hheld := stateIsHeldWhileQuiet n { s with inputs := ps }.resetEdge (by simp) hlen hquiet
  rw [Nat.add_comm, runEdges_cons n s p ps hin, edge_of_rst hr]
  exact ⟨_, hheld, State.status_of_idle (State.resetEdge_phase s)⟩

end Sys2Proof.Machine
end

section
/-! `start` held at 1 (70_reset_and_hazards.md R102). -/

namespace Sys2Proof.Machine

/-- Inputs that request a command are those of the request for the command they name. -/
theorem PortIn.eq_request {p : PortIn} (hr : p.rst = false) (hs : p.start = true) :
    p = PortIn.request (Mode.ofBit p.mode) p.blockIn p.keyIn := by
  rw [PortIn.request, Mode.toBit_ofBit, ← hr, ← hs]

/-- Settles O44: the first command completes whatever `start` is at its edges, and `DONE` accepts the next one. -/
theorem heldStartLaunchesAgain : Obligations.HeldStartLaunchesAgain := by
  intro s p q ps qs hwf hb hin hlen hheld
  simp only [List.cons_append, List.forall_mem_cons, List.forall_mem_append] at hheld
  obtain ⟨⟨hpr, hps⟩, hlater, ⟨hqr, hqs⟩, -⟩ := hheld
  rw [PortIn.eq_request hpr hps] at hin
  obtain ⟨t, hrun, ht, -, hrest⟩ := runEdges_of_request_completes hwf hb hin hlen fun r hmem => (hlater r hmem).1
  have hstep : step t = .next ({ t with inputs := qs }.accept (Mode.ofBit q.mode) q.blockIn q.keyIn) := by
    rw [step_cons t q qs hrest, edge_of_accepts ⟨hqr, hqs, by simp [ht.done]⟩]
  exact ⟨t, _, hrun, t.done_iff.mpr ht.done, rounds_ofBit_blk p.mode _ _ ▸ ht.blockOut, hstep,
    rfl, rfl, rfl, rfl, rfl, rfl⟩

end Sys2Proof.Machine
end

section
/-! What the host drives at the next edge (30_encoding.md R55; log entry 4): a command placed there, and nothing once
its list has run out. -/

namespace Sys2Proof.Machine

/-! ### A placed command -/

@[simp] theorem PortIn.ofInstr_rst (i : Instr) : (PortIn.ofInstr i).rst = false := by
  cases i <;> rfl

@[simp] theorem PortIn.ofInstr_start (i : Instr) : (PortIn.ofInstr i).start = true := by
  cases i <;> rfl

/-- The operand inputs that request a command are its packed word. -/
@[simp] theorem PortIn.cmd_ofInstr (i : Instr) : (PortIn.ofInstr i).cmd = encode i := by
  cases i <;> rfl

theorem State.withFetchWord_of_decodes (s : State) {nbits w : Nat} {i : Instr} (h : decodeTableWord nbits w = some i) :
    s.withFetchWord nbits w = s.replaceNext (PortIn.ofInstr i) := by
  rw [State.withFetchWord, h]

/-- Settles O17: the edge samples the command's own packed word, and by O16 runs the command that word decodes to. -/
theorem placedWordRunsAtTheNextEdge : Obligations.PlacedWordRunsAtTheNextEdge := by
  intro s nbits w i h
  obtain ⟨hstep, -⟩ := stepRunsTheDecodedCommand (s.replaceNext (PortIn.ofInstr i)) (PortIn.ofInstr i) s.inputs.tail
    (s.replaceNext_inputs _) (PortIn.ofInstr_rst i) (PortIn.ofInstr_start i)
  rw [PortIn.cmd_ofInstr, decode_encode] at hstep
  rw [State.withFetchWord_of_decodes s h]
  exact hstep

/-! ### No inputs left -/

theorem State.sampled_of_inputs_nil {s : State} (h : s.inputs = []) : s.sampled = PortIn.nop := by
  rw [State.sampled, h]

theorem State.advanceInputs_of_inputs_nil {s : State} (h : s.inputs = []) : s.advanceInputs = s := by
  rw [State.advanceInputs, h, List.tail_nil, ← h]

theorem step_of_inputs_nil {s : State} (h : s.inputs = []) : step s = .next (edge PortIn.nop s) := by
  rw [step_eq, State.sampled_of_inputs_nil h, State.advanceInputs_of_inputs_nil h]

/-- Settles O45: the edge is that of a `NOP`, which holds a state outside `BUSY` and carries an operation on. -/
theorem exhaustedInputsAreQuiet : Obligations.ExhaustedInputsAreQuiet := by
  intro s h
  rw [step_of_inputs_nil h]
  exact ⟨fun hb => congrArg Host.Outcome.next (edge_of_quiet rfl rfl hb),
    fun hb => congrArg Host.Outcome.next (edge_of_busy rfl hb)⟩

end Sys2Proof.Machine
end
